-- ==== Sys2Proof/Word.lean ====
section
/-!
DEFINITION. The word types of the GCM mode engine.

A block is held as the big-endian 128-bit number `int128` of spec rule R9 ("a block and its `int128`
determine each other"): byte 0 is the most significant byte. Byte strings are lists of bytes, the first
byte first (R8). Log 17.
-/

namespace Sys2Proof

/-- A byte, R8. -/
abbrev Byte := BitVec 8

/-- A 16-byte block, read as the big-endian number `int128`, R8 and R9. -/
abbrev Block := BitVec 128

/-- A byte string, R8. -/
abbrev Bytes := List Byte

/-- The value of a 16-bit length or sizing register, R21. -/
abbrev Len := BitVec 16

end Sys2Proof
end

