-- ==== Sys2Proof/Machine/Blocks.lean ====
section
/-!
DEFINITION. Blocks as bytes and bits (spec rules R8, R9) and the block arithmetic primitives (R120 to R124).
-/

namespace Sys2Proof.Machine

/-- `X[j]`, byte `j` of a block, byte 0 the most significant (R9). -/
def byteOf (x : Block) (j : Nat) : Byte := x.extractLsb' (8 * (15 - j)) 8

/-- The 16 bytes of a block, byte 0 first (R60). -/
def blockBytes (x : Block) : Bytes := (List.range 16).map (byteOf x)

/-- The block of 16 bytes, byte 0 first: the big-endian sum of R9. A shorter string is padded on the right with
zero bytes, which is the padding of a partial block in R143. -/
def blockOfBytes (bs : Bytes) : Block :=
  BitVec.ofNat 128 ((List.range 16).foldl (fun n j => 2 ^ 8 * n + (bs.getD j 0#8).toNat) 0)

/-- The field bit `fbit(X, i)`: bit `7 - i mod 8` of byte `i div 8` (R9). -/
def fbit (x : Block) (i : Nat) : Bool := (byteOf x (i / 8)).getLsbD (7 - i % 8)

/-- The number of 16-byte blocks of `n` bytes, the last one perhaps partial: `(n + 15) div 16` (R143, R161). -/
def blockCount (n : Nat) : Nat := (n + 15) / 16

/-- `roundUp16(n)`, R8. -/
def roundUp16 (n : Nat) : Nat := 16 * blockCount n

/-- The first `k` blocks of a byte string, a partial one padded on the right with zero bytes (R143). -/
def blocksOf : Nat → Bytes → List Block
  | 0, _ => []
  | k + 1, bs => blockOfBytes (bs.take 16) :: blocksOf k (bs.drop 16)

/-- The bytes of a list of blocks, in order. -/
def blocksBytes (xs : List Block) : Bytes := xs.flatMap blockBytes

/-- XOR128, R120. -/
def xor128 (a b : Block) : Block := a ^^^ b

/-- SHR1, R121: the right shift by one and the bit it drops. -/
def shr1 (v : Block) : Block × Bool := (v >>> 1, v.getLsbD 0)

/-- INCR32, R122: the rightmost 4 bytes counted modulo `2^32`, the leftmost 12 kept. -/
def incr32 (b : Block) : Block := b.extractLsb' 32 96 ++ (b.extractLsb' 0 32 + 1#32)

/-- The counter `ctr(B)` of a counter block, R61. -/
def ctrOf (b : Block) : BitVec 32 := b.extractLsb' 0 32

/-- TAGSEQUAL, R123: the OR of the XOR of each byte pair, all 16 steps always run (R124); equal when it is zero. -/
def tagsEqual (a b : Block) : Bool :=
  (List.range 16).foldl (fun acc j => acc ||| (byteOf a j ^^^ byteOf b j)) 0#8 == 0#8

end Sys2Proof.Machine
end

