-- ==== Sys2Proof/Config.lean ====
section
/-!
DEFINITION. What is fixed for the life of the hardware (spec rules R7 and R43), and the two values the spec
leaves open: the block cipher behind the port `E` and the contents of MEM at launch.
-/

namespace Sys2Proof

/-- The configuration record of R7 and R43, with the launch contents of MEM (R42, U13). -/
structure Config where
  /-- The block-cipher port `E(plainBlock, key)`, R34. -/
  E : Block → Block → Block
  /-- What the byte at an address holds at launch, R42. -/
  launchByte : Nat → Byte
  /-- The address width of MEM in bits, R7. -/
  AW : Nat
  /-- The minimum workspace of GCM.ENC in bytes, R36. -/
  wsminEnc : Len
  /-- The minimum workspace of GCM.ENCP in bytes, R36. -/
  wsminEncp : Len
  /-- The minimum workspace of GCM.DEC in bytes, R36. -/
  wsminDec : Len

/-- The external block cipher: a parameter of the model, of which nothing is known but that it is a total
function of the block and the key (R34, R43, U10). Log 1. -/
opaque Config.blockCipher : Block → Block → Block

/-- The contents of MEM at power-up: a parameter of the launch; no value is assumed of any byte the host has
not written (R42, U13). Log 2. -/
opaque Config.launchMemory : Nat → Byte

/-- The configuration the machine runs with: the spec's defaults where R7 gives one, the two open values where
it gives none. Log 3. -/
def Config.machine : Config where
  E := Config.blockCipher
  launchByte := Config.launchMemory
  AW := 16
  wsminEnc := 144
  wsminEncp := 128
  wsminDec := 160

end Sys2Proof
end

