-- ==== Sys2Proof/Machine/HostMove.lean ====
section
/-!
DEFINITION. What the host can do to the engine and what it gets back: spec rules R21, R92 and R280. A program
for this hardware is a sequence of host moves, and the list of them is its encoding (R92).
-/

namespace Sys2Proof.Machine

/-- The sixteen registers of the map of R21. -/
inductive RegName where
  | cmd | status | keyPtr | ivPtr | aadPtr | aadLen | dinPtr | dinLen
  | doutPtr | tagPtr | wsPtr | wsLen | wsminEnc | wsminEncp | wsminDec | reserved
  deriving DecidableEq, Repr

/-- One host move (R92), or the reset event between two of them (R280, R44). Log 4 and 6. -/
inductive HostMove where
  /-- `RegWrite(n, v)`, R21. -/
  | regWrite (n v : Nat)
  /-- `RegRead(n)`, R21. -/
  | regRead (n : Nat)
  /-- The host writes one byte of MEM, R92. -/
  | memWrite (a : Nat) (b : Byte)
  /-- The host reads one byte of MEM, R92. -/
  | memRead (a : Nat)
  /-- Reset, R280. -/
  | reset
  deriving DecidableEq, Repr

/-- What a read returned to the host: R21 for a register, R92 for a byte of MEM. Log 4. -/
inductive Reply where
  | reg (n v : Nat)
  | byte (a : Nat) (b : Byte)
  deriving DecidableEq, Repr

end Sys2Proof.Machine
end

