-- ==== Sys2Proof/Syntax.lean ====
section
/-!
DEFINITION. The instructions: the three commands of the opcode map, spec rule R91. A command word has no
register field, no immediate and no mode bits (R90), so no constructor has an argument.
-/

namespace Sys2Proof

/-- One constructor per row of the opcode table, R91. -/
inductive Instr where
  /-- GCM.ENC, encrypt (unpadded), R202. -/
  | gcmEnc
  /-- GCM.ENCP, encrypt (padded or GMAC), R204. -/
  | gcmEncp
  /-- GCM.DEC, decrypt and authenticate, R206. -/
  | gcmDec
  deriving DecidableEq, Repr

end Sys2Proof
end

