-- ==== Sys2Proof/WellFormed.lean ====
section
/-!
DEFINITION. What is well formed: an instruction, a host move, a configuration.
-/

namespace Sys2Proof

/-- A command has no operand field, so each of the three is well formed (R90). -/
def Instr.wellFormed : Instr → Bool
  | .gcmEnc => true
  | .gcmEncp => true
  | .gcmDec => true

/-- A host move names a register of the map (R37: "4 register-number bits") or an address of MEM (R40). The value
of a register write is any number: it is truncated to the register's width (R21). -/
def Machine.HostMove.wellFormed (c : Config) : Machine.HostMove → Bool
  | .regWrite n _ => decide (n < 16)
  | .regRead n => decide (n < 16)
  | .memWrite a _ => decide (a < 2 ^ c.AW)
  | .memRead a => decide (a < 2 ^ c.AW)
  | .reset => true

/-- A configuration of the engine: "any `AW` of 1 or more" (D3), and minima that hold the working blocks of the
layout R234, which end at 0x90, 0x80 and 0xA0 for the three commands (R231). Log 16. -/
def Config.wellFormed (c : Config) : Bool :=
  decide (1 ≤ c.AW) && decide (0x90 ≤ c.wsminEnc.toNat) && decide (0x80 ≤ c.wsminEncp.toNat)
    && decide (0xA0 ≤ c.wsminDec.toNat)

end Sys2Proof
end

