-- ==== Sys2Proof/Decode.lean ====
section
/-!
DEFINITION. The decoder and the encoder of commands (spec rules R90, R91, R100), and the numbers of the registers
(R21).
-/

namespace Sys2Proof

/-- Why a byte is no command. -/
inductive DecodeError where
  /-- An opcode other than 0x01, 0x02 and 0x03, R100. Raised by `decode`; the CMD write that carries it completes
  with IllegalCommand, so nothing stops. -/
  | illegalOpcode (b : Byte)
  deriving DecidableEq, Repr

/-- The opcode map of R91, total on every byte: every other value is illegal (R100). -/
def decode (b : Byte) : Except DecodeError Instr :=
  if b = 0x01#8 then .ok .gcmEnc
  else if b = 0x02#8 then .ok .gcmEncp
  else if b = 0x03#8 then .ok .gcmDec
  else .error (.illegalOpcode b)

/-- The opcode byte of a command, from the table of R91. -/
def encode : Instr → Byte
  | .gcmEnc => 0x01#8
  | .gcmEncp => 0x02#8
  | .gcmDec => 0x03#8

/-- The opcode of a CMD write of the value `v` is `v mod 2^8` (R90, R33). -/
def opcodeOf (v : Nat) : Byte := BitVec.ofNat 8 v

/-- The instruction the decoder reads from a row of `nbits` bits whose value is `w`. The longest instruction is
one byte; the bits of the row above `nbits` are 0. -/
def decodeTableWord (nbits w : Nat) : Option Instr :=
  match decode (opcodeOf (w % 2 ^ nbits)) with
  | .ok i => some i
  | .error _ => none

/-- The register with a number, from the map of R21; a number above 0xF names none (R37). -/
def regOfNumber : Nat → Option Machine.RegName
  | 0x0 => some .cmd
  | 0x1 => some .status
  | 0x2 => some .keyPtr
  | 0x3 => some .ivPtr
  | 0x4 => some .aadPtr
  | 0x5 => some .aadLen
  | 0x6 => some .dinPtr
  | 0x7 => some .dinLen
  | 0x8 => some .doutPtr
  | 0x9 => some .tagPtr
  | 0xA => some .wsPtr
  | 0xB => some .wsLen
  | 0xC => some .wsminEnc
  | 0xD => some .wsminEncp
  | 0xE => some .wsminDec
  | 0xF => some .reserved
  | _ => none

/-- The number of a register, from the map of R21. -/
def numberOfReg : Machine.RegName → Nat
  | .cmd => 0x0
  | .status => 0x1
  | .keyPtr => 0x2
  | .ivPtr => 0x3
  | .aadPtr => 0x4
  | .aadLen => 0x5
  | .dinPtr => 0x6
  | .dinLen => 0x7
  | .doutPtr => 0x8
  | .tagPtr => 0x9
  | .wsPtr => 0xA
  | .wsLen => 0xB
  | .wsminEnc => 0xC
  | .wsminEncp => 0xD
  | .wsminDec => 0xE
  | .reserved => 0xF

end Sys2Proof
end

