-- ==== Sys2Proof/Machine/Flags.lean ====
section
/-!
DEFINITION. The flags: the three fields of STATUS and the values a completion writes (spec rules R35, R38, R99,
R250, R256, R257).
-/

namespace Sys2Proof.Machine

/-- The error causes of R250, without `None`. -/
inductive ErrCode where
  /-- The required output pointer is absent, R251. -/
  | invalidBuffer
  /-- The data length is not a multiple of 16, R252. -/
  | unalignedInput
  /-- Both lengths are zero, R253. -/
  | emptyInput
  /-- A length above 255, R254. -/
  | sizeOverflow
  /-- The workspace is smaller than the command's minimum, R258. -/
  | insufficientWorkspace
  /-- The recomputed tag differs from the supplied one, R259. -/
  | authenticationFailure
  /-- The opcode is not defined, R260. -/
  | illegalCommand
  deriving DecidableEq, Repr

/-- The number of an error code, R250. -/
def errNumber : ErrCode → Nat
  | .invalidBuffer => 1
  | .unalignedInput => 2
  | .emptyInput => 3
  | .sizeOverflow => 4
  | .insufficientWorkspace => 5
  | .authenticationFailure => 6
  | .illegalCommand => 7

/-- STATUS after an error: `0x01 | (code << 4)`, R256. -/
def statusOfErr (e : ErrCode) : Byte := 0x01#8 ||| (BitVec.ofNat 8 (errNumber e) <<< 4)

/-- STATUS after success, R257. -/
def statusOk : Byte := 0x03#8

/-- The field DONE, bit 0, R35. -/
def doneOf (status : Byte) : Bool := status.getLsbD 0

/-- The field OK, bit 1, R35. -/
def okOf (status : Byte) : Bool := status.getLsbD 1

/-- The field ERR, bits 7:4, R35. -/
def errOf (status : Byte) : BitVec 4 := status.extractLsb' 4 4

/-- The only values STATUS ever holds, R35. -/
def statusLegal (status : Byte) : Bool :=
  [0x00#8, 0x03#8, 0x11#8, 0x21#8, 0x31#8, 0x41#8, 0x51#8, 0x61#8, 0x71#8].contains status

end Sys2Proof.Machine
end

