-- ==== Sys2Proof/Machine/State.lean ====
section
/-!
DEFINITION. The state of the machine: the pair (REGS, MEM) of spec rule R20, and beside it the host's coming moves
and the answers to its reads (log 4).
-/

namespace Sys2Proof.Machine

/-- Why the machine stops with a fault. -/
inductive Fault where
  /-- Raised by a host read or write of an address at or above `2^AW`, which MEM does not have (R40). Safe: the
  spec gives such an access no effect and the model gives it none. Log 9. -/
  | noSuchAddress (a : Nat)
  deriving DecidableEq, Repr

/-- Why the model gives a step no meaning. -/
inductive Refusal where
  /-- Raised by an arm of `exec` whose instruction has no meaning yet; no arm of this model uses it. Safe. -/
  | notModelled (mnemonic : String)
  /-- Raised by a host access to a register number above 0xF: "does not exist; the model refuses such an access"
  (R37). Safe. -/
  | noSuchRegister (n : Nat)
  /-- Raised by a command that passes its precondition checks while a region of it is not valid: "gives a command
  with an invalid region no meaning and refuses it" (R66, U2). Safe. -/
  | invalidRegion
  /-- Raised by a command whose regions are all valid while one it writes meets another: "the spec gives no meaning
  to any overlap and the model refuses it" (R67, U1). Safe. -/
  | overlappingRegions
  deriving DecidableEq, Repr

/-- The registers that hold a value, R21: ten descriptor registers and STATUS. CMD is not stored (R33), the sizing
registers are configuration (R36), 0xF holds nothing (R37). Pointers are numbers below `2^AW`: the register write
truncates them (R21, R64). Log 8. -/
structure Regs where
  /-- STATUS, 8 bits, R35. -/
  status : Byte
  /-- KEY_PTR, AW bits, R22. -/
  keyPtr : Nat
  /-- IV_PTR, AW bits, R23. -/
  ivPtr : Nat
  /-- AAD_PTR, AW bits, R24. -/
  aadPtr : Nat
  /-- AAD_LEN, 16 bits, R25. -/
  aadLen : Len
  /-- DIN_PTR, AW bits, R26. -/
  dinPtr : Nat
  /-- DIN_LEN, 16 bits, R27. -/
  dinLen : Len
  /-- DOUT_PTR, AW bits, R28. -/
  doutPtr : Nat
  /-- TAG_PTR, AW bits, R29. -/
  tagPtr : Nat
  /-- WS_PTR, AW bits, R31. -/
  wsPtr : Nat
  /-- WS_LEN, 16 bits, R32. -/
  wsLen : Len
  deriving DecidableEq, Repr

/-- MEM, R40: the bytes that differ from what an unlisted address reads as (`Config.launchByte`), by strictly
rising address. Log 2. -/
abbrev Memory := List Host.Cell

/-- The whole state. `regs` and `mem` are the spec's (R20); `moves` and `replies` are the model's own (log 4). -/
structure State where
  regs : Regs
  mem : Memory
  /-- The host's coming moves, the next one first. -/
  moves : List HostMove
  /-- What the host's reads returned, oldest first. -/
  replies : List Reply
  deriving DecidableEq, Repr

/-- The register file after reset, R42. -/
def Regs.reset : Regs where
  status := 0x00#8
  keyPtr := 0
  ivPtr := 0
  aadPtr := 0
  aadLen := 0#16
  dinPtr := 0
  dinLen := 0#16
  doutPtr := 0
  tagPtr := 0
  wsPtr := 0
  wsLen := 0#16

/-- The machine right after reset, R42: nothing of MEM listed, and no host move waiting (log 4). -/
def State.reset : State where
  regs := Regs.reset
  mem := []
  moves := []
  replies := []

end Sys2Proof.Machine
end

