-- ==== Sys2Proof/Machine/Ops.lean ====
section
/-!
DEFINITION. The named operations over memory and registers, and the two ways a command completes: with an error
(spec rule R256) and with success (R257). There is no return from an error (R262).
-/

namespace Sys2Proof.Machine

/-- The listed byte at an address, if there is one. -/
def lookupCell : Memory → Nat → Option Byte
  | [], _ => none
  | (k, x) :: m, a => if a = k then some x else lookupCell m a

/-- Lists a byte, keeping the addresses rising. -/
def insertCell : Memory → Nat → Byte → Memory
  | [], a, b => [(a, b)]
  | (k, x) :: m, a, b =>
    if a < k then (a, b) :: (k, x) :: m
    else if a = k then (a, b) :: m
    else (k, x) :: insertCell m a b

/-- Takes an address off the list. -/
def eraseCell (m : Memory) (a : Nat) : Memory := m.filter (fun p => p.1 != a)

/-- `MEM[a]`: an unlisted address reads as at launch (R42). -/
def readByte (c : Config) (m : Memory) (a : Nat) : Byte := (lookupCell m a).getD (c.launchByte a)

/-- `MEM[a] <- b`, keeping the canonical form: the launch value of an address is not listed. -/
def writeByte (c : Config) (m : Memory) (a : Nat) (b : Byte) : Memory :=
  if b = c.launchByte a then eraseCell m a else insertCell m a b

/-- `MemRead(addr, n)`, R10: byte `i` is `MEM[addr + i]`. -/
def readBytes (c : Config) (m : Memory) (a n : Nat) : Bytes := (List.range n).map (fun i => readByte c m (a + i))

/-- `MemWrite(addr, n, v)`, R10: one byte at a time, in increasing address. -/
def writeBytes (c : Config) : Memory → Nat → Bytes → Memory
  | m, _, [] => m
  | m, a, b :: bs => writeBytes c (writeByte c m a b) (a + 1) bs

/-- The canonical form of MEM under a configuration: addresses strictly rising, all of them in the address space
(R40), and no byte listed that equals what an unlisted address reads as. -/
def memoryWf (c : Config) (m : Memory) : Bool :=
  decide (m.Pairwise (fun p q => p.1 < q.1))
    && m.all (fun p => decide (p.1 < 2 ^ c.AW) && p.2 != c.launchByte p.1)

/-- `x[NAME]`, the value a register read returns, zero-extended (R21): CMD and the reserved register read 0, the
sizing registers read the configuration (R36). -/
def readReg (c : Config) (r : Regs) : RegName → Nat
  | .cmd => 0
  | .status => r.status.toNat
  | .keyPtr => r.keyPtr
  | .ivPtr => r.ivPtr
  | .aadPtr => r.aadPtr
  | .aadLen => r.aadLen.toNat
  | .dinPtr => r.dinPtr
  | .dinLen => r.dinLen.toNat
  | .doutPtr => r.doutPtr
  | .tagPtr => r.tagPtr
  | .wsPtr => r.wsPtr
  | .wsLen => r.wsLen.toNat
  | .wsminEnc => c.wsminEnc.toNat
  | .wsminEncp => c.wsminEncp.toNat
  | .wsminDec => c.wsminDec.toNat
  | .reserved => 0

/-- The value a pointer register stores: `v mod 2^AW`, R21. -/
def ptrOf (c : Config) (v : Nat) : Nat := v % 2 ^ c.AW

/-- The value a length register stores: `v mod 2^16`, R21. -/
def lenOf (v : Nat) : Len := BitVec.ofNat 16 v

/-- `x[NAME] <- v` for a write that starts no command (R21): a descriptor register stores the value truncated to its
width; the read-only and the reserved registers ignore it (R35, R36, R37). CMD stores nothing (R33). -/
def writeReg (c : Config) (r : Regs) (v : Nat) : RegName → Regs
  | .cmd => r
  | .status => r
  | .keyPtr => { r with keyPtr := ptrOf c v }
  | .ivPtr => { r with ivPtr := ptrOf c v }
  | .aadPtr => { r with aadPtr := ptrOf c v }
  | .aadLen => { r with aadLen := lenOf v }
  | .dinPtr => { r with dinPtr := ptrOf c v }
  | .dinLen => { r with dinLen := lenOf v }
  | .doutPtr => { r with doutPtr := ptrOf c v }
  | .tagPtr => { r with tagPtr := ptrOf c v }
  | .wsPtr => { r with wsPtr := ptrOf c v }
  | .wsLen => { r with wsLen := lenOf v }
  | .wsminEnc => r
  | .wsminEncp => r
  | .wsminDec => r
  | .reserved => r

/-- Writes STATUS and nothing else (R256, R257). -/
def setStatus (s : State) (v : Byte) : State := { s with regs := { s.regs with status := v } }

/-- Replaces the contents of MEM. -/
def setMem (s : State) (m : Memory) : State := { s with mem := m }

/-- `raise Err(code)`, the shared error completion, R256: STATUS takes the code and nothing else changes. -/
def raiseErr (e : ErrCode) (s : State) : State := setStatus s (statusOfErr e)

/-- `ok()`, the successful completion, R257. -/
def completeOk (s : State) : State := setStatus s statusOk

end Sys2Proof.Machine
end

