-- ==== Sys2Proof/Machine/Operands.lean ====
section
/-!
DEFINITION. How a command forms its operands from the descriptor registers (spec rule R93), its regions (R70) and
when they are valid (R66) and disjoint (R67), and the precondition checks (R255).
-/

namespace Sys2Proof.Machine

/-- The names of the regions of R70. -/
inductive RegionName where
  | key | iv | aad | din | dout | tag | ws
  deriving DecidableEq, Repr

/-- One row of the table of R70 for one command: the address, the length, the extent that counts for disjointness,
and whether the command writes the region. -/
structure RegionUse where
  name : RegionName
  base : Nat
  len : Nat
  extent : Nat
  written : Bool
  deriving DecidableEq, Repr

/-- `L = x[DIN_LEN]`, an unscaled byte count, R93. -/
def dataLen (r : Regs) : Nat := r.dinLen.toNat

/-- `A = x[AAD_LEN]`, an unscaled byte count, R93. -/
def aadLenOf (r : Regs) : Nat := r.aadLen.toNat

/-- The extent of the data output reserved by a command: `roundUp16(L)` for GCM.ENC, `L` otherwise (R70, R203). -/
def doutExtent (op : Instr) (r : Regs) : Nat :=
  match op with
  | .gcmEnc => roundUp16 (dataLen r)
  | .gcmEncp => dataLen r
  | .gcmDec => dataLen r

/-- Whether a command writes the tag region, R70. -/
def writesTag : Instr → Bool
  | .gcmEnc => true
  | .gcmEncp => true
  | .gcmDec => false

/-- The regions of a command, R70. -/
def regionsOf (op : Instr) (r : Regs) : List RegionUse :=
  [⟨.key, r.keyPtr, 16, 16, false⟩,
    ⟨.iv, r.ivPtr, 12, 12, false⟩,
    ⟨.aad, r.aadPtr, aadLenOf r, aadLenOf r, false⟩,
    ⟨.din, r.dinPtr, dataLen r, dataLen r, false⟩,
    ⟨.dout, r.doutPtr, dataLen r, doutExtent op r, true⟩,
    ⟨.tag, r.tagPtr, 16, 16, writesTag op⟩,
    ⟨.ws, r.wsPtr, r.wsLen.toNat, r.wsLen.toNat, true⟩]

/-- A region `(p, n)` is valid when it is empty, or does not hold NULL and does not pass the top of memory (R66). -/
def regionValid (c : Config) (p n : Nat) : Bool := decide (n = 0 ∨ (1 ≤ p ∧ p + n ≤ 2 ^ c.AW))

/-- Two regions are disjoint when their address sets do not meet (R67). -/
def regionsDisjoint (p n q m : Nat) : Bool := decide (n = 0 ∨ m = 0 ∨ p + n ≤ q ∨ q + m ≤ p)

/-- Two regions of one command may stand together: neither is written, or they are disjoint (R67). -/
def compatible (u v : RegionUse) : Bool :=
  (!u.written && !v.written) || regionsDisjoint u.base u.extent v.base v.extent

/-- Every written region is disjoint from every other region of the command (R67). -/
def allCompatible : List RegionUse → Bool
  | [] => true
  | u :: us => us.all (compatible u) && allCompatible us

/-- The region checks, phase (3) of R201: the refusal of a command whose regions are not all valid, or not all
disjoint where they must be. The length of a region counts for validity, the reserved extent for disjointness
(log 10). Log 11. -/
def regionCheck (c : Config) (op : Instr) (r : Regs) : Option Refusal :=
  if (regionsOf op r).all (fun u => regionValid c u.base u.len) then
    if allCompatible (regionsOf op r) then none else some .overlappingRegions
  else some .invalidRegion

/-- The minimum workspace of a command, R231. -/
def wsMin (c : Config) : Instr → Nat
  | .gcmEnc => c.wsminEnc.toNat
  | .gcmEncp => c.wsminEncp.toNat
  | .gcmDec => c.wsminDec.toNat

/-- WSCHECK fails: the workspace is smaller than the command's minimum (R232). -/
def workspaceShort (c : Config) (op : Instr) (r : Regs) : Bool := decide (r.wsLen.toNat < wsMin c op)

/-- The data output pointer is NULL where the command requires it (R251). -/
def outputAbsent (op : Instr) (r : Regs) : Bool :=
  match op with
  | .gcmEnc => decide (r.doutPtr = 0)
  | .gcmEncp => decide (r.doutPtr = 0)
  | .gcmDec => false

/-- Both lengths are zero (R253). -/
def inputEmpty (r : Regs) : Bool := decide (dataLen r = 0 ∧ aadLenOf r = 0)

/-- The data length is not a multiple of 16 where the command requires it (R252). -/
def inputUnaligned (op : Instr) (r : Regs) : Bool :=
  match op with
  | .gcmEnc => false
  | .gcmEncp => decide (dataLen r % 16 ≠ 0)
  | .gcmDec => decide (dataLen r % 16 ≠ 0)

/-- A length above the cap of 255 (R254). -/
def inputTooLong (r : Regs) : Bool := decide (255 < dataLen r ∨ 255 < aadLenOf r)

/-- PRECHECK, R255: the first failing check of the list, in its order; it reads descriptor registers only. -/
def precheck (c : Config) (op : Instr) (r : Regs) : Option ErrCode :=
  if workspaceShort c op r then some .insufficientWorkspace
  else if outputAbsent op r then some .invalidBuffer
  else if inputEmpty r then some .emptyInput
  else if inputUnaligned op r then some .unalignedInput
  else if inputTooLong r then some .sizeOverflow
  else none

end Sys2Proof.Machine
end

