-- ==== Sys2Proof/Machine/Ctr.lean ====
section
/-!
DEFINITION. The counter-mode cipher in its two variants (spec rules R160 to R164). `E` is the block-cipher port.
-/

namespace Sys2Proof.Machine

/-- The full blocks of CTR: `q` times the keystream block `E(CB, key)` XORed with an input block and the counter
incremented; the output and the last `CB` (R161). -/
def ctrBlocks (E : Block → Block → Block) (key : Block) : Nat → Block → Bytes → Bytes × Block
  | 0, cb, _ => ([], cb)
  | q + 1, cb, input =>
    (blockBytes (xor128 (blockOfBytes (input.take 16)) (E cb key))
        ++ (ctrBlocks E key q (incr32 cb) (input.drop 16)).1,
      (ctrBlocks E key q (incr32 cb) (input.drop 16)).2)

/-- The partial XOR of a tail with the leading bytes of a keystream block (R120, R161). -/
def xorTail (tail : Bytes) (ks : Block) : Bytes := tail.zipWith (· ^^^ ·) (blockBytes ks)

/-- CTR, the unpadded variant, R161: the full blocks, then a tail of `n mod 16` bytes under the counter as it then
stands. -/
def ctr (E : Block → Block → Block) (key icb : Block) (input : Bytes) : Bytes :=
  let q := input.length / 16
  let full := ctrBlocks E key q icb input
  if input.length % 16 = 0 then full.1 else full.1 ++ xorTail (input.drop (16 * q)) (E full.2 key)

/-- CTRP, the padded variant, R162, on the whole blocks it is defined on (U4; log 12). -/
def ctrp (E : Block → Block → Block) (key : Block) : Block → List Block → List Block
  | _, [] => []
  | cb, x :: xs => xor128 x (E cb key) :: ctrp E key (incr32 cb) xs

/-- CTRP on the byte string of a data region whose length is a multiple of 16 (R162, R164). -/
def ctrpBytes (E : Block → Block → Block) (key icb : Block) (input : Bytes) : Bytes :=
  blocksBytes (ctrp E key icb (blocksOf (input.length / 16) input))

end Sys2Proof.Machine
end

