-- ==== Sys2Proof/Machine/Galois.lean ====
section
/-!
DEFINITION. The Galois field engine: GFMUL, GHASH_FOLD and GHASH (spec rules R140 to R145).
-/

namespace Sys2Proof.Machine

/-- The reduction constant: 0xE1 in byte 0, R97. -/
def reductionConstant : Block := 0xE1#128 <<< 120

/-- The update of the running multiple `V`: a right shift by one, and the reduction constant XORed in when the
dropped bit was 1 (R141). -/
def gfStepV (v : Block) : Block :=
  if (shr1 v).2 then (shr1 v).1 ^^^ reductionConstant else (shr1 v).1

/-- One iteration of GFMUL on (`Z`, `V`): the conditional XOR with `V` as it stands, then the update of `V` (R141). -/
def gfStep (x : Block) (zv : Block × Block) (i : Nat) : Block × Block :=
  (if fbit x i then xor128 zv.1 zv.2 else zv.1, gfStepV zv.2)

/-- The 128 iterations of GFMUL: the last `Z` and `V` (R141). -/
def gfmulRun (x y : Block) : Block × Block := (List.range 128).foldl (gfStep x) (0#128, y)

/-- GFMUL, R141. -/
def gfmul (x y : Block) : Block := (gfmulRun x y).1

/-- One fold step of the accumulator: `Y ← multiply(Y XOR block, H)`, R143. -/
def ghashStep (h y blk : Block) : Block := gfmul (xor128 y blk) h

/-- GHASH_FOLD, R143: the accumulator is threaded in and out; a partial last block is zero-padded. -/
def ghashFold (y : Block) (data : Bytes) (h : Block) : Block :=
  (blocksOf (blockCount data.length) data).foldl (ghashStep h) y

/-- GHASH, the one-shot form, R144. -/
def ghash (data : Bytes) (h : Block) : Block := ghashFold 0#128 data h

end Sys2Proof.Machine
end

