-- ==== Sys2Proof/Machine/Tag.lean ====
section
/-!
DEFINITION. Authentication-key derivation and tag synthesis (spec rules R180 to R184).
-/

namespace Sys2Proof.Machine

/-- DERIVE_H, R180. -/
def deriveH (E : Block → Block → Block) (key : Block) : Block := E 0#128 key

/-- MAKE_J0, R181: the 12 bytes of the IV, then 00 00 00 01 (R94). -/
def makeJ0 (iv : Bytes) : Block := blockOfBytes (iv.take 12 ++ [0x00#8, 0x00#8, 0x00#8, 0x01#8])

/-- The two bytes of a bit length, the more significant first: the low 16 bits of `8 * n` (R96, R62). -/
def bitLengthBytes (n : Nat) : Bytes := [BitVec.ofNat 8 (8 * n % 2 ^ 16 / 2 ^ 8), BitVec.ofNat 8 (8 * n % 2 ^ 16)]

/-- LENBLOCK, R182: bytes 6 and 7 hold the bit length of the AAD, bytes 14 and 15 that of the ciphertext. -/
def lenBlock (a c : Nat) : Block :=
  blockOfBytes (List.replicate 6 0#8 ++ bitLengthBytes a ++ List.replicate 6 0#8 ++ bitLengthBytes c)

/-- The hash value `S`: AAD, ciphertext and length block folded in that order into one accumulator that starts at
zero (R183, R184). -/
def tagHash (h : Block) (aad cdata : Bytes) : Block :=
  ghashFold (ghashFold (ghashFold 0#128 aad h) cdata h) (blockBytes (lenBlock aad.length cdata.length)) h

/-- GENTAG, R184: `S` encrypted by the padded variant as one block under `J0`. -/
def gentag (E : Block → Block → Block) (key h : Block) (aad cdata : Bytes) (j0 : Block) : Block :=
  (ctrp E key j0 [tagHash h aad cdata]).headD 0#128

end Sys2Proof.Machine
end

