-- ==== Sys2Proof/Machine/Workspace.lean ====
section
/-!
DEFINITION. The workspace buffer controller: the layout of the working blocks and the erasure (spec rules R39,
R230 to R238). The size check is `workspaceShort` of Operands.lean.
-/

namespace Sys2Proof.Machine

/-- The working blocks of R39, with what they hold when the body of a command ends; the last three are `none` where
the command does not use them. Log 13. -/
structure WorkBlocks where
  /-- The authentication subkey. -/
  h : Block
  /-- The initial counter block. -/
  j0 : Block
  /-- The working counter block, last used by the tag's CTRP. -/
  cb : Block
  /-- The keystream block, last that of the tag. -/
  ks : Block
  /-- The accumulator, whose last value is `S`. -/
  y : Block
  /-- The multiplier's accumulator. -/
  z : Block
  /-- The multiplier's running multiple. -/
  v : Block
  /-- The staging block of GHASH, last the length block. -/
  blk : Block
  /-- The staging of a trailing partial data block, GCM.ENC only. -/
  tail : Option Block
  /-- The recomputed tag, GCM.DEC only. -/
  tagc : Option Block
  /-- The copy of the supplied tag, GCM.DEC only. -/
  tagr : Option Block
  deriving DecidableEq, Repr

/-- The layout of R234: the offset from WS_PTR of each block the command uses. -/
def workspaceImage (w : WorkBlocks) : List (Nat × Block) :=
  [(0x00, w.h), (0x10, w.j0), (0x20, w.cb), (0x30, w.ks), (0x40, w.y), (0x50, w.z), (0x60, w.v), (0x70, w.blk)]
    ++ (w.tail.toList.map (fun x => (0x80, x)))
    ++ (w.tagc.toList.map (fun x => (0x80, x)))
    ++ (w.tagr.toList.map (fun x => (0x90, x)))

/-- Places the working blocks in the workspace at their offsets (R39, R234). -/
def populate (c : Config) (m : Memory) (wsPtr : Nat) (w : WorkBlocks) : Memory :=
  (workspaceImage w).foldl (fun m p => writeBytes c m (wsPtr + p.1) (blockBytes p.2)) m

/-- ERASE_WS, R236: the whole supplied region of WS_LEN bytes is zeroed. -/
def eraseWs (c : Config) (m : Memory) (r : Regs) : Memory :=
  writeBytes c m r.wsPtr (List.replicate r.wsLen.toNat 0x00#8)

/-- The blocks common to all commands after GENTAG has run on its operands (R39, R184); `tail`, `tagc` and `tagr`
are the command's own. -/
def workBlocksAfter (E : Block → Block → Block) (key h : Block) (aad cdata : Bytes) (j0 : Block)
    (tail tagc tagr : Option Block) : WorkBlocks where
  h := h
  j0 := j0
  cb := incr32 j0
  ks := E j0 key
  y := tagHash h aad cdata
  z := tagHash h aad cdata
  v := (gfmulRun (xor128 (ghashFold (ghashFold 0#128 aad h) cdata h) (lenBlock aad.length cdata.length)) h).2
  blk := lenBlock aad.length cdata.length
  tail := tail
  tagc := tagc
  tagr := tagr

/-- The tail staged by CTR: the trailing partial block of the data, when there is one (R39, R161). -/
def stagedTail (data : Bytes) : Option Block :=
  if data.length % 16 = 0 then none else some (blockOfBytes (data.drop (16 * (data.length / 16))))

end Sys2Proof.Machine
end

