-- ==== Sys2Proof/Machine/Gcm.lean ====
section
/-!
DEFINITION. The three commands (spec rules R200 to R212). Each meaning takes the configuration, so that a claim may
quantify over it (R43); the `exec…` definitions are the meanings on the machine's own configuration.
-/

namespace Sys2Proof.Machine

/-- Phases (2) and (3) of R201 in front of a body: a failing precondition ends the command with its error and
touches no memory; an invalid or overlapping region gives the command no meaning. -/
def guarded (c : Config) (op : Instr) (body : State → State) (s : State) :
    Host.Outcome State Fault Refusal :=
  match precheck c op s.regs with
  | some e => .next (raiseErr e s)
  | none =>
    match regionCheck c op s.regs with
    | some r => .refused r
    | none => .next (body s)

/-- The key of a command: the 16 bytes at KEY_PTR, R22. -/
def keyOf (c : Config) (s : State) : Block := blockOfBytes (readBytes c s.mem s.regs.keyPtr 16)

/-- The IV of a command: the 12 bytes at IV_PTR, R23. -/
def ivOf (c : Config) (s : State) : Bytes := readBytes c s.mem s.regs.ivPtr 12

/-- `H`, derived anew by each command, R180. -/
def subkeyOf (c : Config) (s : State) : Block := deriveH c.E (keyOf c s)

/-- `J0`, computed once per command, R181. -/
def j0Of (c : Config) (s : State) : Block := makeJ0 (ivOf c s)

/-- The data input: the DIN_LEN bytes at DIN_PTR, R26. -/
def dataOf (c : Config) (s : State) : Bytes := readBytes c s.mem s.regs.dinPtr (dataLen s.regs)

/-- The AAD: the AAD_LEN bytes at AAD_PTR, R24. -/
def aadOf (c : Config) (s : State) (m : Memory) : Bytes := readBytes c m s.regs.aadPtr (aadLenOf s.regs)

/-- MEM after the data output of a command is written, R202 and R206. -/
def memAfterData (c : Config) (s : State) (out : Bytes) : Memory := writeBytes c s.mem s.regs.doutPtr out

/-- The body of the encrypt commands after the ciphertext `ct` is computed (R202, R204): write it, read the AAD and
the ciphertext back, write the tag, erase the workspace, succeed. -/
def encryptBody (c : Config) (ct : Bytes) (tail : Option Block) (s : State) : State :=
  let m₁ := memAfterData c s ct
  let aad := aadOf c s m₁
  let cdata := readBytes c m₁ s.regs.doutPtr (dataLen s.regs)
  let tag := gentag c.E (keyOf c s) (subkeyOf c s) aad cdata (j0Of c s)
  let m₂ := writeBytes c m₁ s.regs.tagPtr (blockBytes tag)
  let w := workBlocksAfter c.E (keyOf c s) (subkeyOf c s) aad cdata (j0Of c s) tail none none
  completeOk (setMem s (eraseWs c (populate c m₂ s.regs.wsPtr w) s.regs))

/-- GCM.ENC, R202: encrypt with the unpadded variant, exactly DIN_LEN bytes written (R203). -/
def gcmEnc (c : Config) (s : State) : Host.Outcome State Fault Refusal :=
  guarded c .gcmEnc
    (fun s => encryptBody c (ctr c.E (keyOf c s) (incr32 (j0Of c s)) (dataOf c s)) (stagedTail (dataOf c s)) s) s

/-- GCM.ENCP, R204: encrypt with the padded variant; GMAC when there is no data (R205). -/
def gcmEncp (c : Config) (s : State) : Host.Outcome State Fault Refusal :=
  guarded c .gcmEncp
    (fun s => encryptBody c (ctrpBytes c.E (keyOf c s) (incr32 (j0Of c s)) (dataOf c s)) none s) s

/-- The body of GCM.DEC (R206): the plaintext is written before the tag is checked (R207), the workspace is erased,
and the comparison decides between success and AuthenticationFailure (R259). -/
def decryptBody (c : Config) (s : State) : State :=
  let ct := dataOf c s
  let m₁ := memAfterData c s (ctrpBytes c.E (keyOf c s) (incr32 (j0Of c s)) ct)
  let aad := aadOf c s m₁
  let tagc := gentag c.E (keyOf c s) (subkeyOf c s) aad ct (j0Of c s)
  let tagr := blockOfBytes (readBytes c m₁ s.regs.tagPtr 16)
  let w := workBlocksAfter c.E (keyOf c s) (subkeyOf c s) aad ct (j0Of c s) none (some tagc) (some tagr)
  let t := setMem s (eraseWs c (populate c m₁ s.regs.wsPtr w) s.regs)
  if tagsEqual tagc tagr then completeOk t else raiseErr .authenticationFailure t

/-- GCM.DEC, R206. -/
def gcmDec (c : Config) (s : State) : Host.Outcome State Fault Refusal := guarded c .gcmDec (decryptBody c) s

/-- GCM.ENC on the machine. -/
def execGcmEnc (s : State) : Host.Outcome State Fault Refusal := gcmEnc Config.machine s

/-- GCM.ENCP on the machine. -/
def execGcmEncp (s : State) : Host.Outcome State Fault Refusal := gcmEncp Config.machine s

/-- GCM.DEC on the machine. -/
def execGcmDec (s : State) : Host.Outcome State Fault Refusal := gcmDec Config.machine s

/-- The command a configuration runs for an instruction, for claims that quantify over configurations (R43). -/
def runCommand (c : Config) (i : Instr) (s : State) : Host.Outcome State Fault Refusal :=
  match i with
  | .gcmEnc => gcmEnc c s
  | .gcmEncp => gcmEncp c s
  | .gcmDec => gcmDec c s

end Sys2Proof.Machine
end

