-- ==== Sys2Proof/Machine/Dispatch.lean ====
section
/-!
DEFINITION. The dispatch of an instruction to its meaning, one arm per constructor.
-/

namespace Sys2Proof.Machine

/-- The instruction's meaning on the machine. -/
def exec (i : Instr) (s : State) : Host.Outcome State Fault Refusal :=
  match i with
  | .gcmEnc => Sys2Proof.Machine.execGcmEnc s
  | .gcmEncp => Sys2Proof.Machine.execGcmEncp s
  | .gcmDec => Sys2Proof.Machine.execGcmDec s

end Sys2Proof.Machine
end

