-- ==== Sys2Proof/Machine/Moves.lean ====
section
/-!
DEFINITION. What one host move does (spec rules R21, R33, R92, R280), and the pseudo-instructions (R104).
-/

namespace Sys2Proof.Machine

/-- A write of `v` to CMD, R33: the opcode `v mod 2^8` selects the command, which `run` runs; an undefined opcode
completes with IllegalCommand and changes nothing else (R100, R208, R260). -/
def writeCmd (run : Instr → State → Host.Outcome State Fault Refusal) (v : Nat) (s : State) :
    Host.Outcome State Fault Refusal :=
  match decode (opcodeOf v) with
  | .ok i => run i s
  | .error _ => .next (raiseErr .illegalCommand s)

/-- The answer of a read reaches the host. Log 4. -/
def reply (s : State) (a : Reply) : State := { s with replies := s.replies ++ [a] }

/-- `RegWrite(n, v)`, R21. -/
def regWrite (c : Config) (run : Instr → State → Host.Outcome State Fault Refusal) (n v : Nat) (s : State) :
    Host.Outcome State Fault Refusal :=
  match regOfNumber n with
  | none => .refused (.noSuchRegister n)
  | some .cmd => writeCmd run v s
  | some x => .next { s with regs := writeReg c s.regs v x }

/-- `RegRead(n)`, R21; no register read has a side effect. -/
def regRead (c : Config) (n : Nat) (s : State) : Host.Outcome State Fault Refusal :=
  match regOfNumber n with
  | none => .refused (.noSuchRegister n)
  | some x => .next (reply s (.reg n (readReg c s.regs x)))

/-- The host writes one byte of MEM (R92); an address at or above `2^AW` does not exist (R40; log 9). -/
def hostWrite (c : Config) (a : Nat) (b : Byte) (s : State) : Host.Outcome State Fault Refusal :=
  if a < 2 ^ c.AW then .next (setMem s (writeByte c s.mem a b)) else .fault (.noSuchAddress a)

/-- The host reads one byte of MEM (R92); an address at or above `2^AW` does not exist (R40; log 9). -/
def hostRead (c : Config) (a : Nat) (s : State) : Host.Outcome State Fault Refusal :=
  if a < 2 ^ c.AW then .next (reply s (.byte a (readByte c s.mem a))) else .fault (.noSuchAddress a)

/-- Reset, R280: the register file takes its reset values, MEM is left as it was. -/
def resetEvent (s : State) : State := { s with regs := Regs.reset }

/-- One host move. -/
def runMove (c : Config) (run : Instr → State → Host.Outcome State Fault Refusal) (m : HostMove) (s : State) :
    Host.Outcome State Fault Refusal :=
  match m with
  | .regWrite n v => regWrite c run n v s
  | .regRead n => regRead c n s
  | .memWrite a b => hostWrite c a b s
  | .memRead a => hostRead c a s
  | .reset => .next (resetEvent s)

/-- The next move of the host is taken off the list and made; with none waiting the engine waits for one and nothing
changes (R42, R280; log 7). -/
def stepMove (c : Config) (run : Instr → State → Host.Outcome State Fault Refusal) (s : State) :
    Host.Outcome State Fault Refusal :=
  match s.moves with
  | [] => .next s
  | m :: ms => runMove c run m { s with moves := ms }

/-- The host's next move becomes a write of `v` to CMD. Log 5. -/
def withCommand (s : State) (v : Nat) : State := { s with moves := .regWrite 0 v :: s.moves }

/-- The arguments of the three calls of R104: the pointers and lengths, and the caller's workspace. -/
structure CallArgs where
  key : Nat
  iv : Nat
  aad : Nat
  aadLen : Nat
  input : Nat
  inputLen : Nat
  output : Nat
  tag : Nat
  ws : Nat
  wsLen : Nat
  deriving DecidableEq, Repr

/-- The descriptor writes of a call, in the order R104 gives them (their order is free). -/
def descriptorMoves (a : CallArgs) : List HostMove :=
  [.regWrite 0x2 a.key, .regWrite 0x3 a.iv, .regWrite 0x6 a.input, .regWrite 0x7 a.inputLen, .regWrite 0x4 a.aad,
    .regWrite 0x5 a.aadLen, .regWrite 0x8 a.output, .regWrite 0x9 a.tag, .regWrite 0xA a.ws, .regWrite 0xB a.wsLen]

/-- A pseudo-instruction, R104: the descriptor writes, the command, and a read of STATUS. -/
def callMoves (i : Instr) (a : CallArgs) : List HostMove :=
  descriptorMoves a ++ [.regWrite 0x0 (encode i).toNat, .regRead 0x1]

/-- `gcmEncrypt`, R104. -/
def gcmEncryptMoves (a : CallArgs) : List HostMove := callMoves .gcmEnc a

/-- `gcmEncryptPadded`, R104. -/
def gcmEncryptPaddedMoves (a : CallArgs) : List HostMove := callMoves .gcmEncp a

/-- `gcmDecrypt`, R104; `tag` is an input. -/
def gcmDecryptMoves (a : CallArgs) : List HostMove := callMoves .gcmDec a

/-- What a call returns: STATUS bit 1 of the last answer (R104). -/
def callResult (s : State) : Bool :=
  match s.replies.getLast? with
  | some (.reg _ v) => okOf (BitVec.ofNat 8 v)
  | some (.byte _ _) => false
  | none => false

end Sys2Proof.Machine
end

