-- ==== Sys2Proof/Machine/Step.lean ====
section
/-!
DEFINITION. One step of the machine: the host's next move on the machine's configuration.
-/

namespace Sys2Proof.Machine

/-- One step. A command is one step: it is atomic (spec rule R200). -/
def step (s : State) : Host.Outcome State Fault Refusal := stepMove Config.machine exec s

/-- The state whose very next step runs the command of a row of the opcode table: the engine has no program counter
and fetches nothing (R30), a command is what the host writes to CMD (R33). Log 5. -/
def State.withFetchWord (s : State) (nbits w : Nat) : State := withCommand s (w % 2 ^ nbits)

end Sys2Proof.Machine
end

