-- ==== Sys2Proof/Safety.lean ====
section
/-!
DEFINITION. What counts as a safe state and a safe run, and the terms claims are made in: the regions of a command
as address sets, the conditions under which a command's own effect runs, and what the memory holds.
-/

namespace Sys2Proof.Machine

/-- A register file of the hardware: every pointer fits its AW bits (spec rule R21) and STATUS holds one of the
values it ever holds (R35). -/
def Regs.legal (c : Config) (r : Regs) : Bool :=
  statusLegal r.status
    && [r.keyPtr, r.ivPtr, r.aadPtr, r.dinPtr, r.doutPtr, r.tagPtr, r.wsPtr].all (fun p => decide (p < 2 ^ c.AW))

/-- The invariant of the machine: a legal register file, and MEM in canonical form with every listed address in the
address space (R40). -/
def State.Inv (c : Config) (s : State) : Prop := s.regs.legal c = true ∧ memoryWf c s.mem = true

/-- A run of `k` steps that neither faults nor is refused. -/
def safeRun (k : Nat) (s : State) : Prop :=
  match Host.Core.run Sys2Proof.core k s with
  | .next _ => True
  | .fault _ => False
  | .refused _ => False

/-- The address `a` is one of `{p, ..., p+n-1}`, the address set of a region (R66). -/
def inRegion (p n a : Nat) : Prop := p ≤ a ∧ a < p + n

/-- A valid region as an address set: it does not contain NULL and every address of it is one of MEM's (R66, R40). -/
def ValidSet (c : Config) (p n : Nat) : Prop := ∀ a, inRegion p n a → a ≠ 0 ∧ a < 2 ^ c.AW

/-- Disjoint regions as address sets: they do not meet (R67). -/
def DisjointSets (p n q m : Nat) : Prop := ∀ a, ¬ (inRegion p n a ∧ inRegion q m a)

/-- The regions a command writes, with the extents that count for disjointness (R67, R70). -/
def writtenExtents (i : Instr) (r : Regs) : List (Nat × Nat) :=
  match i with
  | .gcmEnc => [(r.doutPtr, 16 * ((r.dinLen.toNat + 15) / 16)), (r.wsPtr, r.wsLen.toNat), (r.tagPtr, 16)]
  | .gcmEncp => [(r.doutPtr, r.dinLen.toNat), (r.wsPtr, r.wsLen.toNat), (r.tagPtr, 16)]
  | .gcmDec => [(r.doutPtr, r.dinLen.toNat), (r.wsPtr, r.wsLen.toNat)]

/-- The regions a command only reads (R70). -/
def readExtents (i : Instr) (r : Regs) : List (Nat × Nat) :=
  match i with
  | .gcmEnc => [(r.keyPtr, 16), (r.ivPtr, 12), (r.aadPtr, r.aadLen.toNat), (r.dinPtr, r.dinLen.toNat)]
  | .gcmEncp => [(r.keyPtr, 16), (r.ivPtr, 12), (r.aadPtr, r.aadLen.toNat), (r.dinPtr, r.dinLen.toNat)]
  | .gcmDec =>
    [(r.keyPtr, 16), (r.ivPtr, 12), (r.aadPtr, r.aadLen.toNat), (r.dinPtr, r.dinLen.toNat), (r.tagPtr, 16)]

/-- Every region of a command is valid (R66); the data output counts with the DIN_LEN bytes it is written with
(log 10). -/
def RegionsValid (c : Config) (r : Regs) : Prop :=
  ValidSet c r.keyPtr 16 ∧ ValidSet c r.ivPtr 12 ∧ ValidSet c r.aadPtr r.aadLen.toNat
    ∧ ValidSet c r.dinPtr r.dinLen.toNat ∧ ValidSet c r.doutPtr r.dinLen.toNat ∧ ValidSet c r.tagPtr 16
    ∧ ValidSet c r.wsPtr r.wsLen.toNat

/-- Every region a command writes is disjoint from every other region of it (R67). -/
def RegionsApart (i : Instr) (r : Regs) : Prop :=
  (writtenExtents i r).Pairwise (fun u v => DisjointSets u.1 u.2 v.1 v.2)
    ∧ ∀ u ∈ writtenExtents i r, ∀ v ∈ readExtents i r, DisjointSets u.1 u.2 v.1 v.2

/-- Every precondition check of a command passes (R255): the workspace is large enough (R258), the encrypt commands
have an output pointer (R251), the input is not empty (R253), aligned where it must be (R252), and no longer than
255 bytes a field (R254). -/
def PreconditionsMet (c : Config) (i : Instr) (r : Regs) : Prop :=
  wsMin c i ≤ r.wsLen.toNat
    ∧ (i ≠ .gcmDec → r.doutPtr ≠ 0)
    ∧ ¬ (r.dinLen.toNat = 0 ∧ r.aadLen.toNat = 0)
    ∧ (i ≠ .gcmEnc → r.dinLen.toNat % 16 = 0)
    ∧ r.dinLen.toNat ≤ 255 ∧ r.aadLen.toNat ≤ 255

/-- The command's own effect runs: what the host must have set up (R281, R201). -/
def Ready (c : Config) (i : Instr) (r : Regs) : Prop :=
  PreconditionsMet c i r ∧ RegionsValid c r ∧ RegionsApart i r

/-- The key block in MEM (R22). -/
def keyIn (c : Config) (s : State) : Block := blockOfBytes (readBytes c s.mem s.regs.keyPtr 16)

/-- The initial counter block of the IV in MEM (R23, R94). -/
def counterIn (c : Config) (s : State) : Block := makeJ0 (readBytes c s.mem s.regs.ivPtr 12)

/-- The data input in MEM (R26). -/
def dataIn (c : Config) (s : State) : Bytes := readBytes c s.mem s.regs.dinPtr s.regs.dinLen.toNat

/-- The AAD in MEM (R24). -/
def aadIn (c : Config) (s : State) : Bytes := readBytes c s.mem s.regs.aadPtr s.regs.aadLen.toNat

/-- The tag region in MEM (R29). -/
def tagIn (c : Config) (s : State) : Bytes := readBytes c s.mem s.regs.tagPtr 16

/-- The data output region in MEM, as long as the data input (R28). -/
def outputIn (c : Config) (s : State) : Bytes := readBytes c s.mem s.regs.doutPtr s.regs.dinLen.toNat

/-- The tag of a ciphertext under the key, IV and AAD in MEM (R184, R180). -/
def tagFor (c : Config) (s : State) (ct : Bytes) : Block :=
  gentag c.E (keyIn c s) (c.E 0#128 (keyIn c s)) (aadIn c s) ct (counterIn c s)

/-- Every byte of the workspace is zero (R236, R237). -/
def WorkspaceZero (c : Config) (s : State) : Prop :=
  ∀ i, i < s.regs.wsLen.toNat → readByte c s.mem (s.regs.wsPtr + i) = 0x00#8

/-- Two states whose register files differ in STATUS at most. -/
def SameDescriptors (r r' : Regs) : Prop := { r with status := r'.status } = r'

/-- The value a read of register number `n` returns, where the number exists (R21, R37). -/
def valueOfReg (c : Config) (s : State) (n : Nat) : Option Nat := (regOfNumber n).map (readReg c s.regs)

/-- A byte string padded on the right with zero bytes to a multiple of 16 (R143, R183). -/
def padTo16 (bs : Bytes) : Bytes := bs ++ List.replicate (roundUp16 bs.length - bs.length) 0#8

/-- The counter block advanced `k` times (R160). -/
def advance : Nat → Block → Block
  | 0, cb => cb
  | k + 1, cb => advance k (incr32 cb)

end Sys2Proof.Machine
end

