-- ==== Sys2Proof/Certificates/Slice0/Obligations.lean ====
section
/-!
DEFINITION. The statements for the provers, from the numbered rules of the spec.
-/

open Sys2Proof Sys2Proof.Machine

/-! ## Encoding and the step -/

/-- R91: the opcode map, and every other opcode is illegal. -/
def Obligations.OpcodeMapIsTheTable : Prop :=
  decode 0x01#8 = .ok .gcmEnc ∧ decode 0x02#8 = .ok .gcmEncp ∧ decode 0x03#8 = .ok .gcmDec
    ∧ ∀ b : Byte, b ≠ 0x01#8 → b ≠ 0x02#8 → b ≠ 0x03#8 → decode b = .error (.illegalOpcode b)

/-- R90, R91: decoding the encoded command gives it back, and no other opcode byte decodes to it. -/
def Obligations.DecodeAndEncodeAgree : Prop :=
  ∀ i : Instr, i.wellFormed = true → decode (encode i) = .ok i ∧ ∀ b : Byte, decode b = .ok i → b = encode i

/-- R33, R90: a CMD write runs the command its low 8 bits decode to, in one step, with the descriptors it finds. -/
def Obligations.CommandWriteRunsTheDecodedCommand : Prop :=
  (∀ (s : State) (v : Nat) (ms : List HostMove) (i : Instr),
      s.moves = .regWrite 0 v :: ms → decode (BitVec.ofNat 8 v) = .ok i →
        step s = exec i { s with moves := ms })
    ∧ ∀ (s : State) (i : Instr), step (s.withFetchWord 8 (encode i).toNat) = exec i s

/-- R43: `exec` is the command of the machine's configuration. -/
def Obligations.ExecRunsTheMachinesConfiguration : Prop :=
  ∀ (i : Instr) (s : State), exec i s = runCommand Config.machine i s

/-- R208: an illegal CMD write completes with STATUS 0x71 and changes nothing else. -/
def Obligations.IllegalCommandChangesOnlyStatus : Prop :=
  ∀ (s : State) (v : Nat) (ms : List HostMove), s.moves = .regWrite 0 v :: ms →
    v % 2 ^ 8 ≠ 0x01 → v % 2 ^ 8 ≠ 0x02 → v % 2 ^ 8 ≠ 0x03 →
      step s = .next { s with moves := ms, regs := { s.regs with status := 0x71#8 } }

/-! ## Registers, host moves, reset -/

/-- R21, R36, R37, R101: a register write other than to CMD stores the value truncated to the width of a descriptor
register, is ignored by every other register, and changes no other register and nothing else of the state. -/
def Obligations.RegisterWriteTruncatesOrIsIgnored : Prop :=
  ∀ (s : State) (n v : Nat) (ms : List HostMove), s.moves = .regWrite n v :: ms → 1 ≤ n → n ≤ 0xF →
    ∃ r : Regs, step s = .next { s with moves := ms, regs := r }
      ∧ (n ∈ [0x2, 0x3, 0x4, 0x6, 0x8, 0x9, 0xA] →
          valueOfReg Config.machine { s with regs := r } n = some (v % 2 ^ Config.machine.AW))
      ∧ (n ∈ [0x5, 0x7, 0xB] → valueOfReg Config.machine { s with regs := r } n = some (v % 2 ^ 16))
      ∧ (n ∈ [0x1, 0xC, 0xD, 0xE, 0xF] → r = s.regs)
      ∧ ∀ k, k ≠ n → valueOfReg Config.machine { s with regs := r } k = valueOfReg Config.machine s k

/-- R21, R33, R36, R37: a register read answers the value of the register and has no other effect; CMD and 0xF read
0, the sizing registers read the configuration. The list of replies is the model's (log 4). -/
def Obligations.RegisterReadReturnsTheValue : Prop :=
  ∀ (s : State) (n : Nat) (ms : List HostMove), s.moves = .regRead n :: ms → n ≤ 0xF →
    ∃ v : Nat, step s = .next { s with moves := ms, replies := s.replies ++ [.reg n v] }
      ∧ (n = 0x0 → v = 0) ∧ (n = 0x1 → v = s.regs.status.toNat) ∧ (n = 0x2 → v = s.regs.keyPtr)
      ∧ (n = 0x3 → v = s.regs.ivPtr) ∧ (n = 0x4 → v = s.regs.aadPtr) ∧ (n = 0x5 → v = s.regs.aadLen.toNat)
      ∧ (n = 0x6 → v = s.regs.dinPtr) ∧ (n = 0x7 → v = s.regs.dinLen.toNat) ∧ (n = 0x8 → v = s.regs.doutPtr)
      ∧ (n = 0x9 → v = s.regs.tagPtr) ∧ (n = 0xA → v = s.regs.wsPtr) ∧ (n = 0xB → v = s.regs.wsLen.toNat)
      ∧ (n = 0xC → v = Config.machine.wsminEnc.toNat) ∧ (n = 0xD → v = Config.machine.wsminEncp.toNat)
      ∧ (n = 0xE → v = Config.machine.wsminDec.toNat) ∧ (n = 0xF → v = 0)

/-- R37: register 0xF reads 0 and ignores writes; a register number above it does not exist, the access is refused. -/
def Obligations.ReservedAndMissingRegisters : Prop :=
  ∀ (s : State) (n v : Nat) (ms : List HostMove),
    (s.moves = .regWrite 0xF v :: ms → step s = .next { s with moves := ms })
      ∧ (s.moves = .regRead 0xF :: ms →
          step s = .next { s with moves := ms, replies := s.replies ++ [.reg 0xF 0] })
      ∧ (0xF < n → s.moves = .regWrite n v :: ms → step s = .refused (.noSuchRegister n))
      ∧ (0xF < n → s.moves = .regRead n :: ms → step s = .refused (.noSuchRegister n))

/-- R92, R40: a host byte write changes that byte of MEM and nothing else; a host byte read answers the byte and
changes nothing else. The fault at an address outside MEM is the model's choice (log 9). -/
def Obligations.HostReachesEveryByteOfMemory : Prop :=
  ∀ (s : State) (a : Nat) (b : Byte) (ms : List HostMove),
    (s.moves = .memWrite a b :: ms → a < 2 ^ Config.machine.AW →
      ∃ m : Memory, step s = .next { s with moves := ms, mem := m }
        ∧ readByte Config.machine m a = b
        ∧ ∀ a', a' ≠ a → readByte Config.machine m a' = readByte Config.machine s.mem a')
    ∧ (s.moves = .memRead a :: ms → a < 2 ^ Config.machine.AW →
        step s = .next { s with moves := ms, replies := s.replies ++ [.byte a (readByte Config.machine s.mem a)] })
    ∧ (s.moves = .memWrite a b :: ms → 2 ^ Config.machine.AW ≤ a → step s = .fault (.noSuchAddress a))
    ∧ (s.moves = .memRead a :: ms → 2 ^ Config.machine.AW ≤ a → step s = .fault (.noSuchAddress a))

/-- R42: every register after reset, and that MEM then reads as at launch, of which nothing is assumed. -/
def Obligations.ResetValuesAreTheTable : Prop :=
  (∀ n, n ≤ 0xB → valueOfReg Config.machine State.reset n = some 0)
    ∧ valueOfReg Config.machine State.reset 0xC = some Config.machine.wsminEnc.toNat
    ∧ valueOfReg Config.machine State.reset 0xD = some Config.machine.wsminEncp.toNat
    ∧ valueOfReg Config.machine State.reset 0xE = some Config.machine.wsminDec.toNat
    ∧ valueOfReg Config.machine State.reset 0xF = some 0
    ∧ doneOf State.reset.regs.status = false ∧ okOf State.reset.regs.status = false
    ∧ errOf State.reset.regs.status = 0#4
    ∧ (∀ a, readByte Config.machine State.reset.mem a = Config.machine.launchByte a)
    ∧ exec .gcmEnc State.reset = .next { State.reset with regs := { Regs.reset with status := 0x51#8 } }

/-- R280: the reset event puts the register file in its reset state and leaves MEM as it was. That it is one of the
host's moves is the model's choice (log 6). -/
def Obligations.ResetEventClearsRegistersAndKeepsMemory : Prop :=
  ∀ (s : State) (ms : List HostMove), s.moves = .reset :: ms →
    step s = .next { s with moves := ms, regs := State.reset.regs }

/-- R42, R280: with no host move waiting the engine waits and nothing changes (log 7). -/
def Obligations.EngineWaitsForTheHost : Prop := ∀ s : State, s.moves = [] → step s = .next s

/-- R104: the expansion of a call writes the ten descriptors, runs the command once and answers STATUS. -/
def Obligations.CallExpansionRunsItsCommand : Prop :=
  ∀ (i : Instr) (a : CallArgs) (s t : State) (ms : List HostMove), s.moves = callMoves i a ++ ms →
    a.key < 2 ^ Config.machine.AW → a.iv < 2 ^ Config.machine.AW → a.aad < 2 ^ Config.machine.AW →
    a.input < 2 ^ Config.machine.AW → a.output < 2 ^ Config.machine.AW → a.tag < 2 ^ Config.machine.AW →
    a.ws < 2 ^ Config.machine.AW → a.aadLen < 2 ^ 16 → a.inputLen < 2 ^ 16 → a.wsLen < 2 ^ 16 →
    exec i { s with
      moves := .regRead 0x1 :: ms
      regs := { status := s.regs.status, keyPtr := a.key, ivPtr := a.iv, aadPtr := a.aad,
                aadLen := BitVec.ofNat 16 a.aadLen, dinPtr := a.input, dinLen := BitVec.ofNat 16 a.inputLen,
                doutPtr := a.output, tagPtr := a.tag, wsPtr := a.ws, wsLen := BitVec.ofNat 16 a.wsLen } } = .next t →
    ∃ u : State, Host.Core.run Sys2Proof.core 12 s = .next u ∧ u.regs = t.regs ∧ u.mem = t.mem ∧ u.moves = ms
      ∧ u.replies = s.replies ++ [.reg 0x1 t.regs.status.toNat]
      ∧ callResult u = okOf t.regs.status

/-! ## Memory -/

/-- R10, R60: `MemWrite` then `MemRead` at one address gives the bytes back, byte `i` at `addr + i`, and every other
byte keeps its value. -/
def Obligations.MemoryWriteThenRead : Prop :=
  ∀ (c : Config) (m : Memory) (p : Nat) (bs : Bytes),
    readBytes c (writeBytes c m p bs) p bs.length = bs
      ∧ (∀ i, i < bs.length → readByte c (writeBytes c m p bs) (p + i) = bs.getD i 0#8)
      ∧ ∀ a, ¬ inRegion p bs.length a → readByte c (writeBytes c m p bs) a = readByte c m a

/-- R40: two memories in canonical form that hold the same bytes are the same data. -/
def Obligations.EqualMemoriesAreEqualData : Prop :=
  ∀ (c : Config) (m m' : Memory), memoryWf c m = true → memoryWf c m' = true →
    (∀ a, readByte c m a = readByte c m' a) → m = m'

/-- R66, R67: a command that passes its precondition checks with an invalid or an overlapping region is refused. The names
and the order are the model's choice (log 11), and DOUT counts with DIN_LEN bytes for validity (log 10). -/
def Obligations.InvalidOrOverlappingRegionsAreRefused : Prop :=
  ∀ (i : Instr) (s : State), PreconditionsMet Config.machine i s.regs →
    (¬ RegionsValid Config.machine s.regs → exec i s = .refused .invalidRegion)
      ∧ (RegionsValid Config.machine s.regs → ¬ RegionsApart i s.regs → exec i s = .refused .overlappingRegions)

/-! ## STATUS and errors -/

/-- R255, R256, R250: the first failing check of PRECHECK decides; its code goes to STATUS and nothing else of the
state changes. The minimum of the first check is what the command's sizing register reads (R36, R232). -/
def Obligations.FirstFailingPreconditionIsReported : Prop :=
  ∀ (i : Instr) (s : State),
    (∀ n, (i, n) ∈ [(Instr.gcmEnc, 0xC), (.gcmEncp, 0xD), (.gcmDec, 0xE)] →
      valueOfReg Config.machine s n = some (wsMin Config.machine i))
    ∧ (s.regs.wsLen.toNat < wsMin Config.machine i →
      exec i s = .next { s with regs := { s.regs with status := 0x51#8 } })
    ∧ (wsMin Config.machine i ≤ s.regs.wsLen.toNat → i ≠ .gcmDec → s.regs.doutPtr = 0 →
      exec i s = .next { s with regs := { s.regs with status := 0x11#8 } })
    ∧ (wsMin Config.machine i ≤ s.regs.wsLen.toNat → (i ≠ .gcmDec → s.regs.doutPtr ≠ 0) →
        s.regs.dinLen.toNat = 0 → s.regs.aadLen.toNat = 0 →
      exec i s = .next { s with regs := { s.regs with status := 0x31#8 } })
    ∧ (wsMin Config.machine i ≤ s.regs.wsLen.toNat → (i ≠ .gcmDec → s.regs.doutPtr ≠ 0) →
        i ≠ .gcmEnc → s.regs.dinLen.toNat % 16 ≠ 0 →
      exec i s = .next { s with regs := { s.regs with status := 0x21#8 } })
    ∧ (wsMin Config.machine i ≤ s.regs.wsLen.toNat → (i ≠ .gcmDec → s.regs.doutPtr ≠ 0) →
        (i ≠ .gcmEnc → s.regs.dinLen.toNat % 16 = 0) → 255 < s.regs.dinLen.toNat ∨ 255 < s.regs.aadLen.toNat →
      exec i s = .next { s with regs := { s.regs with status := 0x41#8 } })

/-- R250: which codes a command can report: GCM.ENC never 2 or 6, GCM.ENCP never 6, GCM.DEC never 1, none of them 7;
and a command that answers has completed: DONE is 1, and OK is 1 exactly when ERR is 0. -/
def Obligations.EachCommandReportsOnlyItsOwnErrors : Prop :=
  ∀ (i : Instr) (s t : State), exec i s = .next t →
    doneOf t.regs.status = true ∧ (okOf t.regs.status = true ↔ errOf t.regs.status = 0#4)
      ∧ errOf t.regs.status ≤ 6#4
      ∧ (i = .gcmEnc → errOf t.regs.status ≠ 2#4 ∧ errOf t.regs.status ≠ 6#4)
      ∧ (i = .gcmEncp → errOf t.regs.status ≠ 6#4)
      ∧ (i = .gcmDec → errOf t.regs.status ≠ 1#4)

/-- R36, R232, R233, R258: the minimum of a command is the value its sizing register reads (0xC for GCM.ENC, 0xD for
GCM.ENCP, 0xE for GCM.DEC), and a workspace one byte below that value always fails, whatever else holds. -/
def Obligations.WorkspaceOneByteShortAlwaysFails : Prop :=
  ∀ (i : Instr) (n : Nat) (s : State), (i, n) ∈ [(Instr.gcmEnc, 0xC), (.gcmEncp, 0xD), (.gcmDec, 0xE)] →
    valueOfReg Config.machine s n = some (wsMin Config.machine i)
      ∧ (valueOfReg Config.machine s n = some (s.regs.wsLen.toNat + 1) →
          exec i s = .next { s with regs := { s.regs with status := 0x51#8 } })

/-- R35: STATUS changes only at reset and at the completion of a command. -/
def Obligations.StatusChangesOnlyByCommandOrReset : Prop :=
  ∀ s t : State, step s = .next t → t.regs.status ≠ s.regs.status →
    (∃ ms, s.moves = .reset :: ms) ∨ ∃ v ms, s.moves = .regWrite 0 v :: ms

/-- R35, R280, R262: DONE, once set, is cleared by nothing but reset. -/
def Obligations.DoneIsClearedOnlyByReset : Prop :=
  ∀ s t : State, step s = .next t → doneOf s.regs.status = true → doneOf t.regs.status = false →
    ∃ ms, s.moves = .reset :: ms

/-- R38, R262: no command depends on STATUS, so an error does not latch: the same command on the same registers and
memory gives the same outcome whatever STATUS held. -/
def Obligations.OutcomeDoesNotDependOnStatus : Prop :=
  ∀ (i : Instr) (s : State) (x : Byte), exec i { s with regs := { s.regs with status := x } } = exec i s

/-! ## The commands -/

/-- R202, R203: GCM.ENC completes: exactly DIN_LEN ciphertext bytes, the tag, a zero workspace, STATUS 0x03, and
nothing else changes. That the data output counts with DIN_LEN bytes for validity, so that the command also completes
when the reserved bytes pass the top of MEM, is the model's reading (log 10, R285). -/
def Obligations.GcmEncCompletes : Prop :=
  ∀ s : State, Ready Config.machine .gcmEnc s.regs →
    ∃ t : State, exec .gcmEnc s = .next t
      ∧ t.regs = { s.regs with status := 0x03#8 } ∧ t.moves = s.moves ∧ t.replies = s.replies
      ∧ outputIn Config.machine t
          = ctr Config.machine.E (keyIn Config.machine s) (incr32 (counterIn Config.machine s))
              (dataIn Config.machine s)
      ∧ tagIn Config.machine t = blockBytes (tagFor Config.machine s (outputIn Config.machine t))
      ∧ WorkspaceZero Config.machine t
      ∧ ∀ a, ¬ inRegion s.regs.doutPtr s.regs.dinLen.toNat a → ¬ inRegion s.regs.tagPtr 16 a →
          ¬ inRegion s.regs.wsPtr s.regs.wsLen.toNat a →
          readByte Config.machine t.mem a = readByte Config.machine s.mem a

/-- R204, R205: GCM.ENCP completes, GMAC use included: the ciphertext of the padded variant, the tag, a zero
workspace, STATUS 0x03, and nothing else changes. -/
def Obligations.GcmEncpCompletes : Prop :=
  ∀ s : State, Ready Config.machine .gcmEncp s.regs →
    ∃ t : State, exec .gcmEncp s = .next t
      ∧ t.regs = { s.regs with status := 0x03#8 } ∧ t.moves = s.moves ∧ t.replies = s.replies
      ∧ outputIn Config.machine t
          = ctrpBytes Config.machine.E (keyIn Config.machine s) (incr32 (counterIn Config.machine s))
              (dataIn Config.machine s)
      ∧ tagIn Config.machine t = blockBytes (tagFor Config.machine s (outputIn Config.machine t))
      ∧ WorkspaceZero Config.machine t
      ∧ ∀ a, ¬ inRegion s.regs.doutPtr s.regs.dinLen.toNat a → ¬ inRegion s.regs.tagPtr 16 a →
          ¬ inRegion s.regs.wsPtr s.regs.wsLen.toNat a →
          readByte Config.machine t.mem a = readByte Config.machine s.mem a

/-- R206, R207, R259: GCM.DEC completes: the plaintext is written, the workspace is zeroed, nothing else changes in
MEM, and STATUS is 0x03 when the supplied tag is the recomputed one and 0x61 when it is not. -/
def Obligations.GcmDecCompletes : Prop :=
  ∀ s : State, Ready Config.machine .gcmDec s.regs →
    ∃ t : State, exec .gcmDec s = .next t
      ∧ (tagIn Config.machine s = blockBytes (tagFor Config.machine s (dataIn Config.machine s)) →
          t.regs = { s.regs with status := 0x03#8 })
      ∧ (tagIn Config.machine s ≠ blockBytes (tagFor Config.machine s (dataIn Config.machine s)) →
          t.regs = { s.regs with status := 0x61#8 })
      ∧ t.moves = s.moves ∧ t.replies = s.replies
      ∧ outputIn Config.machine t
          = ctrpBytes Config.machine.E (keyIn Config.machine s) (incr32 (counterIn Config.machine s))
              (dataIn Config.machine s)
      ∧ WorkspaceZero Config.machine t
      ∧ ∀ a, ¬ inRegion s.regs.doutPtr s.regs.dinLen.toNat a →
          ¬ inRegion s.regs.wsPtr s.regs.wsLen.toNat a →
          readByte Config.machine t.mem a = readByte Config.machine s.mem a

/-- R205: GMAC: with no data and some AAD both encrypt commands succeed, write the tag over the AAD alone and no
ciphertext byte, whatever DIN_PTR holds. -/
def Obligations.GmacWritesATagAndNoCiphertext : Prop :=
  ∀ (i : Instr) (s : State) (p : Nat), i ≠ .gcmDec → Ready Config.machine i s.regs → s.regs.dinLen.toNat = 0 →
    ∃ t : State, exec i { s with regs := { s.regs with dinPtr := p } } = .next t
      ∧ t.regs.status = 0x03#8
      ∧ tagIn Config.machine t = blockBytes (tagFor Config.machine s [])
      ∧ ∀ a, ¬ inRegion s.regs.tagPtr 16 a → ¬ inRegion s.regs.wsPtr s.regs.wsLen.toNat a →
          readByte Config.machine t.mem a = readByte Config.machine s.mem a

/-- R209, R256: the frame of the encrypt commands in every outcome that answers: descriptor registers, the host's
lists and every byte outside the ciphertext written, the tag and the workspace are unchanged. -/
def Obligations.EncryptFrame : Prop :=
  ∀ (i : Instr) (s t : State), i ≠ .gcmDec → exec i s = .next t →
    SameDescriptors s.regs t.regs ∧ t.moves = s.moves ∧ t.replies = s.replies
      ∧ (∀ a, ¬ inRegion s.regs.doutPtr s.regs.dinLen.toNat a → ¬ inRegion s.regs.tagPtr 16 a →
          ¬ inRegion s.regs.wsPtr s.regs.wsLen.toNat a →
          readByte Config.machine t.mem a = readByte Config.machine s.mem a)
      ∧ (t.regs.status ≠ 0x03#8 → t.mem = s.mem)

/-- R209, R206, R256: the frame of GCM.DEC in every outcome that answers: descriptor registers, the host's lists and
every byte outside the plaintext written and the workspace, the tag among them, are unchanged. -/
def Obligations.DecryptFrame : Prop :=
  ∀ s t : State, exec .gcmDec s = .next t →
    SameDescriptors s.regs t.regs ∧ t.moves = s.moves ∧ t.replies = s.replies
      ∧ (∀ a, ¬ inRegion s.regs.doutPtr s.regs.dinLen.toNat a →
          ¬ inRegion s.regs.wsPtr s.regs.wsLen.toNat a →
          readByte Config.machine t.mem a = readByte Config.machine s.mem a)
      ∧ (t.regs.status ≠ 0x03#8 → t.regs.status ≠ 0x61#8 → t.mem = s.mem)

/-- R203: the reserved bytes of GCM.ENC's buffer from DIN_LEN to `roundUp16(DIN_LEN)` keep their values. That the
command answers when the reserved bytes pass the top of MEM too is the model's reading (log 10, R285). -/
def Obligations.ReservedCiphertextBytesAreNotWritten : Prop :=
  ∀ s : State, Ready Config.machine .gcmEnc s.regs →
    ∃ t : State, exec .gcmEnc s = .next t
      ∧ ∀ j, s.regs.dinLen.toNat ≤ j → j < roundUp16 s.regs.dinLen.toNat →
          readByte Config.machine t.mem (s.regs.doutPtr + j) = readByte Config.machine s.mem (s.regs.doutPtr + j)

/-- R212, and R237, which the spec marks as derived: a command that reached its body, with success or with AuthenticationFailure, leaves every byte of the
workspace zero, and its inputs, the tag of GCM.DEC among them, as they were (R209, R70). -/
def Obligations.NoResidueInTheWorkspace : Prop :=
  ∀ (i : Instr) (s t : State), Ready Config.machine i s.regs → exec i s = .next t →
    WorkspaceZero Config.machine t ∧ keyIn Config.machine t = keyIn Config.machine s
      ∧ counterIn Config.machine t = counterIn Config.machine s ∧ aadIn Config.machine t = aadIn Config.machine s
      ∧ dataIn Config.machine t = dataIn Config.machine s
      ∧ (i = .gcmDec → tagIn Config.machine t = tagIn Config.machine s)

/-- R204, a sentence the spec marks as derived: for every input both encrypt commands accept they leave the same memory
and the same registers. A workspace below GCM.ENC's minimum is left out, since GCM.ENCP alone accepts it (R231). -/
def Obligations.EncryptCommandsAgreeOnAlignedInput : Prop :=
  ∀ s : State, Ready Config.machine .gcmEnc s.regs → s.regs.dinLen.toNat % 16 = 0 →
    ∃ t t' : State, exec .gcmEnc s = .next t ∧ exec .gcmEncp s = .next t' ∧ t'.regs = t.regs
      ∧ ∀ a, readByte Config.machine t'.mem a = readByte Config.machine t.mem a

/-- R210, which the spec marks as derived: what GCM.ENCP, or GCM.ENC on a multiple of 16 bytes, writes, GCM.DEC accepts
and turns back into the plaintext, on every well-formed configuration (log 16). -/
def Obligations.DecryptionUndoesEncryption : Prop :=
  ∀ (c : Config) (i : Instr) (s t u : State), c.wellFormed = true → i ≠ .gcmDec → Ready c i s.regs →
    s.regs.dinLen.toNat % 16 = 0 → runCommand c i s = .next t →
    Ready c .gcmDec u.regs → keyIn c u = keyIn c s →
    readBytes c u.mem u.regs.ivPtr 12 = readBytes c s.mem s.regs.ivPtr 12 → aadIn c u = aadIn c s →
    dataIn c u = outputIn c t → tagIn c u = tagIn c t →
    ∃ w : State, runCommand c .gcmDec u = .next w ∧ w.regs = { u.regs with status := 0x03#8 }
      ∧ outputIn c w = dataIn c s

/-- R209, R41: STATUS and the output regions after a command are a function of the opcode, the descriptor registers and
the input regions: two states that agree on those give the same, whatever else differs. -/
def Obligations.ResultsDependOnlyOnTheInputs : Prop :=
  ∀ (i : Instr) (s s' t : State), SameDescriptors s.regs s'.regs →
    keyIn Config.machine s' = keyIn Config.machine s →
    readBytes Config.machine s'.mem s.regs.ivPtr 12 = readBytes Config.machine s.mem s.regs.ivPtr 12 →
    aadIn Config.machine s' = aadIn Config.machine s → dataIn Config.machine s' = dataIn Config.machine s →
    (i = .gcmDec → tagIn Config.machine s' = tagIn Config.machine s) →
    exec i s = .next t →
    ∃ t' : State, exec i s' = .next t' ∧ t'.regs = t.regs
      ∧ (Ready Config.machine i s.regs →
          outputIn Config.machine t' = outputIn Config.machine t ∧ tagIn Config.machine t' = tagIn Config.machine t
            ∧ ∀ a, inRegion s.regs.wsPtr s.regs.wsLen.toNat a →
                readByte Config.machine t'.mem a = readByte Config.machine t.mem a)

/-- R211, whose "By the rules" sentence the spec marks as derived, and R207: a changed tag is always detected. GCM.DEC on
what GCM.ENCP, or GCM.ENC on a multiple of 16 bytes, wrote, with any other 16 bytes in the tag region, ends with 0x61,
and the plaintext is written all the same. On every well-formed configuration (log 16). -/
def Obligations.EveryChangedTagIsDetected : Prop :=
  ∀ (c : Config) (i : Instr) (s t u : State), c.wellFormed = true → i ≠ .gcmDec → Ready c i s.regs →
    s.regs.dinLen.toNat % 16 = 0 → runCommand c i s = .next t →
    Ready c .gcmDec u.regs → keyIn c u = keyIn c s →
    readBytes c u.mem u.regs.ivPtr 12 = readBytes c s.mem s.regs.ivPtr 12 → aadIn c u = aadIn c s →
    dataIn c u = outputIn c t → tagIn c u ≠ tagIn c t →
    ∃ w : State, runCommand c .gcmDec u = .next w ∧ w.regs = { u.regs with status := 0x61#8 }
      ∧ outputIn c w = dataIn c s

/-- R211 and R142, which the spec marks as derived and as general knowledge: one changed ciphertext byte, or one changed
AAD byte, changes the tag under every non-zero subkey. -/
def Obligations.OneChangedByteChangesTheTag : Prop :=
  ∀ (E : Block → Block → Block) (key h j0 : Block) (aad ct : Bytes) (j : Nat) (b : Byte), h ≠ 0#128 →
    (j < ct.length → b ≠ ct.getD j 0#8 → gentag E key h aad (ct.set j b) j0 ≠ gentag E key h aad ct j0)
      ∧ (j < aad.length → b ≠ aad.getD j 0#8 → gentag E key h (aad.set j b) ct j0 ≠ gentag E key h aad ct j0)

/-- R211, which the spec marks as derived: GCM.DEC on what GCM.ENCP, or GCM.ENC on a multiple of 16 bytes, wrote, with
one byte of the ciphertext or one byte of the AAD changed and the tag as written, ends with 0x61, unless the derived
subkey is zero. On every well-formed configuration (log 16). -/
def Obligations.OneChangedByteIsDetected : Prop :=
  ∀ (c : Config) (i : Instr) (s t u : State) (j : Nat) (b : Byte), c.wellFormed = true → i ≠ .gcmDec →
    Ready c i s.regs → s.regs.dinLen.toNat % 16 = 0 → runCommand c i s = .next t →
    Ready c .gcmDec u.regs → keyIn c u = keyIn c s →
    readBytes c u.mem u.regs.ivPtr 12 = readBytes c s.mem s.regs.ivPtr 12 → tagIn c u = tagIn c t →
    c.E 0#128 (keyIn c s) ≠ 0#128 →
    (j < (outputIn c t).length ∧ b ≠ (outputIn c t).getD j 0#8 ∧ dataIn c u = (outputIn c t).set j b
        ∧ aadIn c u = aadIn c s)
      ∨ (j < (aadIn c s).length ∧ b ≠ (aadIn c s).getD j 0#8 ∧ aadIn c u = (aadIn c s).set j b
        ∧ dataIn c u = outputIn c t) →
    ∃ w : State, runCommand c .gcmDec u = .next w ∧ w.regs = { u.regs with status := 0x61#8 }

/-! ## The machine as a whole -/

/-- R42, R40: the reset state meets the invariant. -/
def Obligations.ResetMeetsTheInvariant : Prop := State.Inv Config.machine State.reset

/-- R21, R35, R40: every step keeps the invariant: pointers fit AW bits, STATUS holds one of the values it ever holds,
MEM stays in canonical form inside the address space. -/
def Obligations.EveryStepKeepsTheInvariant : Prop :=
  ∀ s t : State, State.Inv Config.machine s → step s = .next t → State.Inv Config.machine t

/-- R209, R21, R68: no move of the host but a write to that register, and no command, changes a descriptor register;
and MEM changes only by a host byte write or by a command. -/
def Obligations.OnlyTheHostWritesDescriptors : Prop :=
  ∀ s t : State, step s = .next t →
    (¬ SameDescriptors s.regs t.regs → (∃ ms, s.moves = .reset :: ms) ∨
      ∃ n v ms, s.moves = .regWrite n v :: ms ∧ n ∈ [0x2, 0x3, 0x4, 0x5, 0x6, 0x7, 0x8, 0x9, 0xA, 0xB])
    ∧ (t.mem ≠ s.mem → (∃ a b ms, s.moves = .memWrite a b :: ms) ∨ ∃ v ms, s.moves = .regWrite 0 v :: ms)

/-- R37, R40, R66, R67: a step stops only on a register number or an address that does not exist, or on a command that
passes its precondition checks with an invalid region or an overlap. The fault is the model's choice (log 9), the names
of the two region refusals and their order are the model's (log 11), and so is that DOUT of GCM.ENC counts with DIN_LEN
bytes for validity (log 10). -/
def Obligations.StopsOnlyOnMissingTargetsAndRegions : Prop :=
  ∀ s : State,
    (∀ f, step s = .fault f → ∃ a ms, 2 ^ Config.machine.AW ≤ a ∧ f = .noSuchAddress a
        ∧ (s.moves = .memRead a :: ms ∨ ∃ b, s.moves = .memWrite a b :: ms))
      ∧ ∀ r, step s = .refused r →
          (∃ n ms, 0xF < n ∧ r = .noSuchRegister n
            ∧ (s.moves = .regRead n :: ms ∨ ∃ v, s.moves = .regWrite n v :: ms))
          ∨ ∃ v ms i, s.moves = .regWrite 0 v :: ms ∧ decode (BitVec.ofNat 8 v) = .ok i
              ∧ PreconditionsMet Config.machine i s.regs
              ∧ (r = .invalidRegion ∧ ¬ RegionsValid Config.machine s.regs
                ∨ r = .overlappingRegions ∧ RegionsValid Config.machine s.regs ∧ ¬ RegionsApart i s.regs)

/-- R21, R37, R40, R92: a list of well-formed host moves with no CMD write among them runs to its end and beyond without
a stop. -/
def Obligations.HostAccessesNeverStop : Prop :=
  ∀ s : State, (∀ m ∈ s.moves, m.wellFormed Config.machine = true ∧ ∀ v, m ≠ .regWrite 0 v) → ∀ k, safeRun k s

/-! ## The micro-operations -/

/-- R120, R121: the XOR of two blocks and the right shift by one, byte by byte. -/
def Obligations.XorAndShiftByteByByte : Prop :=
  ∀ a b v : Block,
    (∀ j, j < 16 → byteOf (xor128 a b) j = byteOf a j ^^^ byteOf b j)
      ∧ ((shr1 v).2 = (byteOf v 15).getLsbD 0)
      ∧ byteOf (shr1 v).1 0 = byteOf v 0 >>> 1
      ∧ ∀ j, 1 ≤ j → j < 16 → byteOf (shr1 v).1 j = (byteOf v j >>> 1) ||| ((byteOf v (j - 1) &&& 1#8) <<< 7)

/-- R122, R61: INCR32 counts the rightmost 4 bytes modulo 2^32 as a big-endian number and keeps the leftmost 12. -/
def Obligations.CounterIncrementKeepsTheLeftBytes : Prop :=
  ∀ b : Block,
    (∀ j, j < 12 → byteOf (incr32 b) j = byteOf b j)
      ∧ (byteOf (incr32 b) 12).toNat * 2 ^ 24 + (byteOf (incr32 b) 13).toNat * 2 ^ 16
            + (byteOf (incr32 b) 14).toNat * 2 ^ 8 + (byteOf (incr32 b) 15).toNat
          = ((byteOf b 12).toNat * 2 ^ 24 + (byteOf b 13).toNat * 2 ^ 16 + (byteOf b 14).toNat * 2 ^ 8
              + (byteOf b 15).toNat + 1) % 2 ^ 32

/-- R123: the comparator is true exactly on bit-identical blocks. -/
def Obligations.ComparatorIsEquality : Prop := ∀ a b : Block, tagsEqual a b = true ↔ a = b

/-- R8, R9, R60: a block and its 16 bytes determine each other, and the field bits are the bits of the block, most
significant first. -/
def Obligations.BlocksAndBytesDetermineEachOther : Prop :=
  (∀ x : Block, blockOfBytes (blockBytes x) = x)
    ∧ (∀ bs : Bytes, bs.length = 16 → blockBytes (blockOfBytes bs) = bs)
    ∧ (∀ x : Block, x.toNat = ((List.range 16).map (fun j => (byteOf x j).toNat * 2 ^ (8 * (15 - j)))).sum)
    ∧ ∀ (x : Block) (i : Nat), i < 128 → fbit x i = x.getMsbD i

/-- R141, R97, R140: the step of GFMUL's running multiple, its identity, its zero, and the reduction
`t · t^127 = 1 + t + t^2 + t^7`. Multiplying by `t` (the block of field bit 1) is SHR1 with 0xE1 XORed into byte 0 when
the dropped bit was 1. The identity and the reduction the spec marks as derived. -/
def Obligations.MultiplierIdentityZeroAndReduction : Prop :=
  (∀ y : Block, gfmul 0x40000000000000000000000000000000#128 y
      = if (shr1 y).2 then xor128 (shr1 y).1 0xe1000000000000000000000000000000#128 else (shr1 y).1)
    ∧ (∀ y : Block, gfmul 0x80000000000000000000000000000000#128 y = y)
    ∧ (∀ x : Block, gfmul x 0x80000000000000000000000000000000#128 = x)
    ∧ (∀ y : Block, gfmul 0#128 y = 0#128) ∧ (∀ x : Block, gfmul x 0#128 = 0#128)
    ∧ gfmul 0x40000000000000000000000000000000#128 0x00000000000000000000000000000001#128
        = 0xe1000000000000000000000000000000#128

/-- R142, which the spec marks as general knowledge that a proof must get from R141: GFMUL is bilinear over XOR128,
commutative and associative. -/
def Obligations.MultiplierIsACommutativeRingProduct : Prop :=
  (∀ a b y : Block, gfmul (xor128 a b) y = xor128 (gfmul a y) (gfmul b y))
    ∧ (∀ x y : Block, gfmul x y = gfmul y x)
    ∧ ∀ a b c : Block, gfmul (gfmul a b) c = gfmul a (gfmul b c)

/-- R142, which the spec marks as general knowledge that a proof must get from R141: GFMUL has no zero divisors, that is,
the polynomial of R140 is irreducible. -/
def Obligations.MultiplierHasNoZeroDivisors : Prop :=
  ∀ x y : Block, gfmul x y = 0#128 → x = 0#128 ∨ y = 0#128

/-- R143, R144: one block is folded by XORing it into the accumulator and multiplying by the subkey, nothing folds
nothing, a byte string folds like its padded form, folding whole blocks and then more is folding their concatenation,
and GHASH folds from zero. Under the zero subkey everything is zero. -/
def Obligations.HashThreadsItsAccumulator : Prop :=
  ∀ (y h x : Block) (a b : Bytes),
    ghashFold y (blockBytes x) h = gfmul (xor128 y x) h
      ∧ ghashFold y [] h = y
      ∧ ghashFold y (padTo16 a) h = ghashFold y a h
      ∧ (a.length % 16 = 0 → ghashFold y (a ++ b) h = ghashFold (ghashFold y a h) b h)
      ∧ ghash a h = ghashFold 0#128 a h ∧ ghash a 0#128 = 0#128

/-- R183: the hash input is the padded AAD, the padded ciphertext and the length block, folded from zero. -/
def Obligations.HashInputIsThePaddedConcatenation : Prop :=
  ∀ (h : Block) (aad ct : Bytes),
    tagHash h aad ct = ghash (padTo16 aad ++ padTo16 ct ++ blockBytes (lenBlock aad.length ct.length)) h

/-- R184, R98: the tag is `S` XOR `E(J0, key)`. -/
def Obligations.TagIsHashXorEncryptedCounter : Prop :=
  ∀ (E : Block → Block → Block) (key h : Block) (aad ct : Bytes) (j0 : Block),
    gentag E key h aad ct j0 = xor128 (tagHash h aad ct) (E j0 key)

/-- R94, R181: J0 is the IV, three zero bytes and 0x01; its counter is 1. -/
def Obligations.InitialCounterBlockFormat : Prop :=
  ∀ iv : Bytes, iv.length = 12 →
    blockBytes (makeJ0 iv) = iv ++ [0x00#8, 0x00#8, 0x00#8, 0x01#8] ∧ ctrOf (makeJ0 iv) = 1#32

/-- R96, R182: the length block: the low 16 bits of the two bit lengths in bytes 6, 7 and 14, 15, high byte first, and
every other byte zero. -/
def Obligations.LengthBlockFormat : Prop :=
  ∀ a c : Nat,
    (byteOf (lenBlock a c) 6).toNat = 8 * a % 2 ^ 16 / 2 ^ 8 ∧ (byteOf (lenBlock a c) 7).toNat = 8 * a % 2 ^ 16 % 2 ^ 8
      ∧ (byteOf (lenBlock a c) 14).toNat = 8 * c % 2 ^ 16 / 2 ^ 8
      ∧ (byteOf (lenBlock a c) 15).toNat = 8 * c % 2 ^ 16 % 2 ^ 8
      ∧ ∀ j, j < 16 → j ∉ [6, 7, 14, 15] → byteOf (lenBlock a c) j = 0#8

/-- R160: the output of CTR is as long as its input, and byte `j` of it is byte `j` of the input XOR byte `j mod 16` of
`E` of the counter block advanced `j div 16` times. -/
def Obligations.CounterModeByteByByte : Prop :=
  ∀ (E : Block → Block → Block) (key icb : Block) (input : Bytes),
    (ctr E key icb input).length = input.length
      ∧ ∀ j, j < input.length →
          (ctr E key icb input).getD j 0#8
            = input.getD j 0#8 ^^^ byteOf (E (advance (j / 16) icb) key) (j % 16)

/-- R162, a sentence the spec marks as derived: on a multiple of 16 bytes the padded variant is the unpadded one. -/
def Obligations.PaddedVariantIsCounterMode : Prop :=
  ∀ (E : Block → Block → Block) (key icb : Block) (input : Bytes), input.length % 16 = 0 →
    ctrpBytes E key icb input = ctr E key icb input

/-- R163, whose half on CTRP the spec marks as derived: CTR is its own inverse, and so is CTRP. -/
def Obligations.CounterModeIsItsOwnInverse : Prop :=
  ∀ (E : Block → Block → Block) (key icb : Block) (input : Bytes),
    ctr E key icb (ctr E key icb input) = input
      ∧ (input.length % 16 = 0 → ctrpBytes E key icb (ctrpBytes E key icb input) = input)
end

