-- ==== Sys2Proof/Laws/Blocks.lean ====
section
/-!
SUPPORT. The laws of blocks: bytes of a block, blocks of a byte string, and the primitives on them.
-/

namespace Sys2Proof.Machine

/-- The value of a byte of a block. -/
theorem byteOf_toNat (x : Block) (j : Nat) : (byteOf x j).toNat = x.toNat / 2 ^ (8 * (15 - j)) % 2 ^ 8 := by
  simp [byteOf, Nat.shiftRight_eq_div_pow]

/-- A bit of a byte of a block. -/
theorem byteOf_getLsbD (x : Block) (j k : Nat) (hk : k < 8) :
    (byteOf x j).getLsbD k = x.getLsbD (8 * (15 - j) + k) := by
  simp [byteOf, hk]

@[simp] theorem length_blockBytes (x : Block) : (blockBytes x).length = 16 := by simp [blockBytes]

theorem getElem_blockBytes (x : Block) (j : Nat) (h : j < (blockBytes x).length) : (blockBytes x)[j] = byteOf x j := by
  simp [blockBytes]

theorem getD_blockBytes (x : Block) {j : Nat} (h : j < 16) : (blockBytes x).getD j 0#8 = byteOf x j := by
  simp [blockBytes, h]

/-- Two blocks with the same sixteen bytes are one block. -/
theorem block_ext {x y : Block} (h : ∀ j, j < 16 → byteOf x j = byteOf y j) : x = y := by
  refine BitVec.eq_of_getLsbD_eq fun i hi => ?_
  have := congrArg (fun b : Byte => b.getLsbD (i % 8)) (h (15 - i / 8) (by omega))
  simp only [byteOf_getLsbD _ _ _ (Nat.mod_lt i (by decide : 0 < 8))] at this
  rwa [show 8 * (15 - (15 - i / 8)) + i % 8 = i by omega] at this

/-- The big-endian sum over the first `n` bytes, with its digits. -/
theorem bigEndian_digits (f : Nat → Byte) (n : Nat) :
    (List.range n).foldl (fun k j => 2 ^ 8 * k + (f j).toNat) 0 < 2 ^ (8 * n)
      ∧ ∀ j, j < n →
        (List.range n).foldl (fun k j => 2 ^ 8 * k + (f j).toNat) 0 / 2 ^ (8 * (n - 1 - j)) % 2 ^ 8 = (f j).toNat := by
  induction n with
  | zero => simp
  | succ n ih =>
    simp only [List.range_succ, List.foldl_append, List.foldl_cons, List.foldl_nil]
    generalize (List.range n).foldl (fun k j => 2 ^ 8 * k + (f j).toNat) 0 = k at ih
    have hf := (f n).isLt
    refine ⟨?_, fun j hj => ?_⟩
    · have h1 := ih.1
      have h2 : 2 ^ (8 * (n + 1)) = 2 ^ 8 * 2 ^ (8 * n) := by rw [← Nat.pow_add]; congr 1; omega
      omega
    · rcases Nat.lt_succ_iff_lt_or_eq.mp hj with hj | rfl
      · have := ih.2 j hj
        rw [show 8 * (n + 1 - 1 - j) = 8 + 8 * (n - 1 - j) by omega, Nat.pow_add, ← Nat.div_div_eq_div_mul,
          show (2 ^ 8 * k + (f n).toNat) / 2 ^ 8 = k by omega]
        exact this
      · simp only [Nat.add_sub_cancel, Nat.sub_self, Nat.mul_zero, Nat.pow_zero, Nat.div_one]
        omega

/-- Byte `j` of the block of a byte string is byte `j` of the string, zero beyond its end. -/
theorem byteOf_blockOfBytes (bs : Bytes) {j : Nat} (h : j < 16) : byteOf (blockOfBytes bs) j = bs.getD j 0#8 := by
  have hd := bigEndian_digits (fun j => bs.getD j 0#8) 16
  refine BitVec.eq_of_toNat_eq ?_
  rw [byteOf_toNat, blockOfBytes, BitVec.toNat_ofNat, Nat.mod_eq_of_lt hd.1]
  exact hd.2 j h

/-- The bytes of the block of sixteen bytes are those bytes. -/
theorem blockBytes_blockOfBytes {bs : Bytes} (h : bs.length = 16) : blockBytes (blockOfBytes bs) = bs := by
  refine List.ext_getElem (by simp [h]) fun j h1 h2 => ?_
  rw [getElem_blockBytes, byteOf_blockOfBytes bs (by simpa using h1)]
  simp [h2]

/-- The block of the bytes of a block is that block. -/
theorem blockOfBytes_blockBytes (x : Block) : blockOfBytes (blockBytes x) = x :=
  block_ext fun j hj => by rw [byteOf_blockOfBytes _ hj, getD_blockBytes x hj]

/-- A byte string and its zero-padded form give the same block. -/
theorem blockOfBytes_congr {bs bs' : Bytes} (h : ∀ j, j < 16 → bs.getD j 0#8 = bs'.getD j 0#8) :
    blockOfBytes bs = blockOfBytes bs' :=
  block_ext fun j hj => by rw [byteOf_blockOfBytes _ hj, byteOf_blockOfBytes _ hj, h j hj]

/-- XOR128 byte by byte. -/
theorem byteOf_xor (x y : Block) (j : Nat) : byteOf (x ^^^ y) j = byteOf x j ^^^ byteOf y j := by
  refine BitVec.eq_of_getLsbD_eq fun k hk => ?_
  simp [byteOf_getLsbD _ _ _ hk]

/-- The comparator's accumulator is zero exactly when all the bytes it has seen agree. -/
theorem tagsEqual_acc (a b : Block) (n : Nat) :
    (List.range n).foldl (fun acc j => acc ||| (byteOf a j ^^^ byteOf b j)) 0#8 = 0#8
      ↔ ∀ j, j < n → byteOf a j = byteOf b j := by
  induction n with
  | zero => simp
  | succ n ih =>
    simp only [List.range_succ, List.foldl_append, List.foldl_cons, List.foldl_nil, BitVec.or_eq_zero_iff, ih,
      BitVec.xor_eq_zero_iff]
    constructor
    · rintro ⟨h1, h2⟩ j hj
      rcases Nat.lt_succ_iff_lt_or_eq.mp hj with hj | rfl
      · exact h1 j hj
      · exact h2
    · exact fun h => ⟨fun j hj => h j (by omega), h n (by omega)⟩

/-! ## Blocks of a byte string -/

@[simp] theorem length_blocksOf (k : Nat) (bs : Bytes) : (blocksOf k bs).length = k := by
  induction k generalizing bs with
  | zero => rfl
  | succ k ih => simp [blocksOf, ih]

theorem getElem_blocksOf (k : Nat) (bs : Bytes) (i : Nat) (h : i < (blocksOf k bs).length) :
    (blocksOf k bs)[i] = blockOfBytes ((bs.drop (16 * i)).take 16) := by
  induction k generalizing bs i with
  | zero => simp [blocksOf] at h
  | succ k ih =>
    cases i with
    | zero => simp [blocksOf]
    | succ i =>
      simp only [blocksOf, List.getElem_cons_succ]
      rw [ih, List.drop_drop]
      congr 3
      omega

@[simp] theorem blocksBytes_nil : blocksBytes [] = [] := rfl

@[simp] theorem blocksBytes_cons (x : Block) (xs : List Block) :
    blocksBytes (x :: xs) = blockBytes x ++ blocksBytes xs := by simp [blocksBytes]

@[simp] theorem length_blocksBytes (xs : List Block) : (blocksBytes xs).length = 16 * xs.length := by
  induction xs with
  | nil => rfl
  | cons x xs ih => simp only [blocksBytes_cons, List.length_append, length_blockBytes, ih, List.length_cons]; omega

/-- The bytes of the whole blocks of a byte string are its leading bytes. -/
theorem blocksBytes_blocksOf (k : Nat) (bs : Bytes) (h : 16 * k ≤ bs.length) :
    blocksBytes (blocksOf k bs) = bs.take (16 * k) := by
  induction k generalizing bs with
  | zero => simp [blocksOf]
  | succ k ih =>
    simp only [blocksOf, blocksBytes_cons]
    rw [blockBytes_blockOfBytes (by simp; omega), ih _ (by simp; omega),
      show 16 * (k + 1) = 16 + 16 * k by omega, List.take_add]

/-- The blocks of the bytes of a list of blocks are those blocks. -/
theorem blocksOf_blocksBytes (xs : List Block) : blocksOf xs.length (blocksBytes xs) = xs := by
  induction xs with
  | nil => rfl
  | cons x xs ih =>
    simp only [List.length_cons, blocksOf, blocksBytes_cons]
    rw [List.take_left' (length_blockBytes x), List.drop_left' (length_blockBytes x), ih, blockOfBytes_blockBytes]

/-- Blocks of a concatenation whose first part is whole blocks. -/
theorem blocksOf_append (k j : Nat) (a b : Bytes) (h : a.length = 16 * k) :
    blocksOf (k + j) (a ++ b) = blocksOf k a ++ blocksOf j b := by
  induction k generalizing a with
  | zero => simp [List.eq_nil_of_length_eq_zero (by simpa using h), blocksOf]
  | succ k ih =>
    rw [show k + 1 + j = (k + j) + 1 by omega]
    simp only [blocksOf, List.cons_append]
    rw [List.take_append_of_le_length (by omega), List.drop_append_of_le_length (by omega), ih _ (by simp; omega)]

end Sys2Proof.Machine
end

