-- ==== Sys2Proof/Laws/Ctr.lean ====
section
/-!
SUPPORT. The laws of the counter-mode cipher and of GHASH over byte strings.
-/

namespace Sys2Proof.Machine

@[simp] theorem length_ctrp (E : Block → Block → Block) (key cb : Block) (xs : List Block) :
    (ctrp E key cb xs).length = xs.length := by
  induction xs generalizing cb with
  | nil => rfl
  | cons x xs ih => simp [ctrp, ih]

@[simp] theorem length_ctrBlocks (E : Block → Block → Block) (key : Block) (q : Nat) (cb : Block) (input : Bytes) :
    (ctrBlocks E key q cb input).1.length = 16 * q := by
  induction q generalizing cb input with
  | zero => rfl
  | succ q ih => simp only [ctrBlocks, List.length_append, length_blockBytes, ih]; omega

/-- The output of CTR is as long as its input, R160. -/
@[simp] theorem length_ctr (E : Block → Block → Block) (key icb : Block) (input : Bytes) :
    (ctr E key icb input).length = input.length := by
  simp only [ctr]
  split
  · rw [length_ctrBlocks]; omega
  · simp only [List.length_append, length_ctrBlocks, xorTail, List.length_zipWith, List.length_drop, length_blockBytes]
    omega

/-- The output of CTRP is as long as its input, on the inputs it is defined on. -/
theorem length_ctrpBytes (E : Block → Block → Block) (key icb : Block) (input : Bytes) (h : input.length % 16 = 0) :
    (ctrpBytes E key icb input).length = input.length := by
  simp [ctrpBytes]; omega

/-- The full blocks of CTR are CTRP on the whole blocks of the input, R162. -/
theorem ctrBlocks_fst (E : Block → Block → Block) (key : Block) (q : Nat) (cb : Block) (input : Bytes) :
    (ctrBlocks E key q cb input).1 = blocksBytes (ctrp E key cb (blocksOf q input)) := by
  induction q generalizing cb input with
  | zero => rfl
  | succ q ih => simp only [ctrBlocks, blocksOf, ctrp, blocksBytes_cons, ih]

/-- GHASH_FOLD over no byte folds nothing, R143. -/
@[simp] theorem ghashFold_nil (y h : Block) : ghashFold y [] h = y := rfl

/-- GHASH_FOLD of one block is one fold step, R143. -/
theorem ghashFold_block (y x h : Block) : ghashFold y (blockBytes x) h = ghashStep h y x := by
  have hb : blocksOf (blockCount 16) (blockBytes x) = [x] := by
    simp [blockCount, blocksOf, List.take_of_length_le, blockOfBytes_blockBytes]
  simp [ghashFold, hb]

end Sys2Proof.Machine
end

