-- ==== Sys2Proof/Laws/Memory.lean ====
section
/-!
SUPPORT. The laws of MEM: a read after a write, what a write leaves alone, and the canonical form.
-/

namespace Sys2Proof.Machine

/-! ## The list of cells -/

theorem lookupCell_insertCell (m : Memory) (a x : Nat) (b : Byte) :
    lookupCell (insertCell m a b) x = if x = a then some b else lookupCell m x := by
  induction m with
  | nil => simp [insertCell, lookupCell]
  | cons p m ih =>
    obtain ⟨k, y⟩ := p
    simp only [insertCell]
    split
    · simp [lookupCell]
    · split
      · subst k
        simp only [lookupCell]
        split <;> simp_all
      · simp only [lookupCell, ih]
        split
        · split
          · omega
          · rfl
        · rfl

theorem lookupCell_eraseCell (m : Memory) (a x : Nat) :
    lookupCell (eraseCell m a) x = if x = a then none else lookupCell m x := by
  induction m with
  | nil => simp [eraseCell, lookupCell]
  | cons p m ih =>
    obtain ⟨k, y⟩ := p
    simp only [eraseCell] at ih ⊢
    by_cases hk : k = a
    · simp only [List.filter_cons, hk, bne_self_eq_false, Bool.false_eq_true, if_false, ih, lookupCell]
      split <;> rfl
    · simp only [List.filter_cons, lookupCell, bne_iff_ne, ne_eq, hk, not_false_eq_true, if_true, ih]
      split
      · split
        · omega
        · rfl
      · rfl

/-- Every key of an inserted list is the inserted address or was a key. -/
theorem mem_insertCell {m : Memory} {a : Nat} {b : Byte} {p : Host.Cell} (h : p ∈ insertCell m a b) :
    p = (a, b) ∨ p ∈ m := by
  induction m with
  | nil => simpa [insertCell] using h
  | cons q m ih =>
    obtain ⟨k, y⟩ := q
    simp only [insertCell] at h
    split at h
    · simpa using h
    · split at h
      · rcases List.mem_cons.mp h with h | h
        · exact .inl h
        · exact .inr (List.mem_cons_of_mem _ h)
      · rcases List.mem_cons.mp h with h | h
        · exact .inr (by simp [h])
        · rcases ih h with h | h
          · exact .inl h
          · exact .inr (List.mem_cons_of_mem _ h)

theorem pairwise_insertCell {m : Memory} (a : Nat) (b : Byte) (h : m.Pairwise (fun p q => p.1 < q.1)) :
    (insertCell m a b).Pairwise (fun p q => p.1 < q.1) := by
  induction m with
  | nil => simp [insertCell]
  | cons q m ih =>
    obtain ⟨k, y⟩ := q
    rw [List.pairwise_cons] at h
    simp only [insertCell]
    split
    · rename_i hak
      refine List.pairwise_cons.mpr ⟨fun p hp => ?_, List.pairwise_cons.mpr h⟩
      rcases List.mem_cons.mp hp with rfl | hp
      · exact hak
      · exact Nat.lt_trans hak (h.1 p hp)
    · split
      · rename_i hak
        subst hak
        exact List.pairwise_cons.mpr ⟨h.1, h.2⟩
      · refine List.pairwise_cons.mpr ⟨fun p hp => ?_, ih h.2⟩
        rcases mem_insertCell hp with rfl | hp
        · show k < a
          omega
        · exact h.1 p hp

/-! ## One byte -/

/-- What a byte write does, said once: the byte, and no other. -/
theorem readByte_writeByte (c : Config) (m : Memory) (a x : Nat) (b : Byte) :
    readByte c (writeByte c m a b) x = if x = a then b else readByte c m x := by
  unfold readByte writeByte
  split
  · rename_i h
    rw [lookupCell_eraseCell]
    split
    · simp_all
    · rfl
  · rw [lookupCell_insertCell]
    split <;> simp

@[simp] theorem readByte_writeByte_self (c : Config) (m : Memory) (a : Nat) (b : Byte) :
    readByte c (writeByte c m a b) a = b := by simp [readByte_writeByte]

theorem readByte_writeByte_of_ne (c : Config) (m : Memory) {a x : Nat} (b : Byte) (h : x ≠ a) :
    readByte c (writeByte c m a b) x = readByte c m x := by simp [readByte_writeByte, h]

@[simp] theorem readByte_nil (c : Config) (a : Nat) : readByte c [] a = c.launchByte a := rfl

/-! ## Byte strings -/

@[simp] theorem length_readBytes (c : Config) (m : Memory) (a n : Nat) : (readBytes c m a n).length = n := by
  simp [readBytes]

theorem getElem_readBytes (c : Config) (m : Memory) (a n i : Nat) (h : i < (readBytes c m a n).length) :
    (readBytes c m a n)[i] = readByte c m (a + i) := by simp [readBytes]

@[simp] theorem readBytes_zero (c : Config) (m : Memory) (a : Nat) : readBytes c m a 0 = [] := rfl

/-- What writing a byte string does, said once: byte `i` at `p + i`, and no other address. -/
theorem readByte_writeBytes (c : Config) (m : Memory) (p : Nat) (bs : Bytes) (x : Nat) :
    readByte c (writeBytes c m p bs) x = if p ≤ x ∧ x < p + bs.length then bs.getD (x - p) 0#8 else readByte c m x := by
  induction bs generalizing m p with
  | nil =>
    simp only [writeBytes, List.length_nil]
    rw [if_neg (by omega)]
  | cons b bs ih =>
    simp only [writeBytes, ih, List.length_cons, readByte_writeByte]
    by_cases h1 : x = p
    · subst h1
      rw [if_neg (by omega), if_pos rfl, if_pos (by omega)]
      simp
    · by_cases h2 : p ≤ x ∧ x < p + (bs.length + 1)
      · rw [if_pos (by omega), if_pos h2, show x - p = (x - (p + 1)) + 1 by omega]
        simp
      · rw [if_neg (by omega), if_neg h2, if_neg h1]

/-- A write leaves every address outside it alone. -/
theorem readByte_writeBytes_of_not_mem (c : Config) (m : Memory) {p : Nat} {bs : Bytes} {x : Nat}
    (h : ¬ inRegion p bs.length x) : readByte c (writeBytes c m p bs) x = readByte c m x := by
  rw [readByte_writeBytes]
  exact if_neg h

/-- Two memories that agree on a region give the same byte string. -/
theorem readBytes_congr {c : Config} {m m' : Memory} {p n : Nat}
    (h : ∀ a, inRegion p n a → readByte c m a = readByte c m' a) : readBytes c m p n = readBytes c m' p n := by
  refine List.map_congr_left fun i hi => h _ ?_
  rw [List.mem_range] at hi
  exact ⟨Nat.le_add_right _ _, Nat.add_lt_add_left hi _⟩

/-- Reading back what was written. -/
theorem readBytes_writeBytes_self (c : Config) (m : Memory) (p : Nat) (bs : Bytes) {n : Nat} (h : bs.length = n) :
    readBytes c (writeBytes c m p bs) p n = bs := by
  refine List.ext_getElem (by simp [h]) fun i h1 h2 => ?_
  rw [getElem_readBytes, readByte_writeBytes, if_pos (by omega)]
  simp [h2]

/-- A write to a disjoint region does not change what a region holds. -/
theorem readBytes_writeBytes_of_disjoint (c : Config) (m : Memory) {p q n : Nat} {bs : Bytes}
    (h : DisjointSets q bs.length p n) : readBytes c (writeBytes c m q bs) p n = readBytes c m p n :=
  readBytes_congr fun a ha => readByte_writeBytes_of_not_mem c m fun hq => h a ⟨hq, ha⟩

theorem DisjointSets.symm {p n q m : Nat} (h : DisjointSets p n q m) : DisjointSets q m p n :=
  fun a ha => h a ⟨ha.2, ha.1⟩

/-- A part of one of two disjoint regions is disjoint from the other. -/
theorem DisjointSets.mono {p n n' q m : Nat} (h : DisjointSets p n q m) (hn : n' ≤ n) : DisjointSets p n' q m :=
  fun a ha => h a ⟨⟨ha.1.1, by have := ha.1.2; omega⟩, ha.2⟩

/-! ## The canonical form -/

theorem memoryWf_iff (c : Config) (m : Memory) :
    memoryWf c m = true ↔ m.Pairwise (fun p q => p.1 < q.1) ∧ ∀ p ∈ m, p.1 < 2 ^ c.AW ∧ p.2 ≠ c.launchByte p.1 := by
  simp [memoryWf, List.all_eq_true]

@[simp] theorem memoryWf_nil (c : Config) : memoryWf c [] = true := by simp [memoryWf]

/-- A byte write inside the address space keeps the canonical form. -/
theorem memoryWf_writeByte {c : Config} {m : Memory} {a : Nat} (b : Byte) (h : memoryWf c m = true)
    (ha : a < 2 ^ c.AW) : memoryWf c (writeByte c m a b) = true := by
  rw [memoryWf_iff] at h ⊢
  unfold writeByte
  split
  · exact ⟨h.1.filter _, fun p hp => h.2 p (List.mem_of_mem_filter hp)⟩
  · rename_i hb
    refine ⟨pairwise_insertCell a b h.1, fun p hp => ?_⟩
    rcases mem_insertCell hp with rfl | hp
    · exact ⟨ha, hb⟩
    · exact h.2 p hp

/-- Writing a byte string inside the address space keeps the canonical form. -/
theorem memoryWf_writeBytes {c : Config} {m : Memory} {p : Nat} {bs : Bytes} (h : memoryWf c m = true)
    (hp : bs = [] ∨ p + bs.length ≤ 2 ^ c.AW) : memoryWf c (writeBytes c m p bs) = true := by
  induction bs generalizing m p with
  | nil => exact h
  | cons b bs ih =>
    have hp : p + (bs.length + 1) ≤ 2 ^ c.AW := by simpa using hp
    exact ih (memoryWf_writeByte b h (by omega)) (.inr (by omega))

theorem lookupCell_eq_some_iff {m : Memory} (h : m.Pairwise (fun p q => p.1 < q.1)) (a : Nat) (b : Byte) :
    lookupCell m a = some b ↔ (a, b) ∈ m := by
  induction m with
  | nil => simp [lookupCell]
  | cons p m ih =>
    obtain ⟨k, y⟩ := p
    rw [List.pairwise_cons] at h
    simp only [lookupCell, List.mem_cons, Prod.mk.injEq]
    split
    · rename_i hak
      subst hak
      refine ⟨fun hb => .inl ⟨rfl, by simpa using hb.symm⟩, ?_⟩
      rintro (⟨-, rfl⟩ | hb)
      · rfl
      · exact absurd (h.1 _ hb) (Nat.lt_irrefl _)
    · rename_i hak
      simp [ih h.2, hak]

/-- In canonical form a byte is listed exactly when it differs from the launch value. -/
theorem mem_iff_readByte {c : Config} {m : Memory} (h : memoryWf c m = true) (a : Nat) (b : Byte) :
    (a, b) ∈ m ↔ readByte c m a = b ∧ b ≠ c.launchByte a := by
  rw [memoryWf_iff] at h
  rw [← lookupCell_eq_some_iff h.1]
  unfold readByte
  constructor
  · intro hb
    exact ⟨by simp [hb], (h.2 _ ((lookupCell_eq_some_iff h.1 a b).mp hb)).2⟩
  · rintro ⟨hr, hb⟩
    cases hl : lookupCell m a with
    | none => simp [hl] at hr; exact absurd hr.symm hb
    | some x => simpa [hl] using hr

/-- Two lists with rising addresses and the same cells are one list. -/
theorem eq_of_rising_of_mem_iff {m m' : Memory} (h : m.Pairwise (fun p q => p.1 < q.1))
    (h' : m'.Pairwise (fun p q => p.1 < q.1)) (hm : ∀ p, p ∈ m ↔ p ∈ m') : m = m' := by
  induction m generalizing m' with
  | nil =>
    cases m' with
    | nil => rfl
    | cons q m' => exact absurd ((hm q).mpr (by simp)) (by simp)
  | cons p m ih =>
    cases m' with
    | nil => exact absurd ((hm p).mp (by simp)) (by simp)
    | cons q m' =>
      rw [List.pairwise_cons] at h h'
      have hpq : p = q := by
        rcases List.mem_cons.mp ((hm p).mp (by simp)) with hp | hp
        · exact hp
        · rcases List.mem_cons.mp ((hm q).mpr (by simp)) with hq | hq
          · exact hq.symm
          · exact absurd (Nat.lt_trans (h.1 _ hq) (h'.1 _ hp)) (Nat.lt_irrefl _)
      subst hpq
      congr 1
      refine ih h.2 h'.2 fun x => ⟨fun hx => ?_, fun hx => ?_⟩
      · rcases List.mem_cons.mp ((hm x).mp (List.mem_cons_of_mem _ hx)) with rfl | hx'
        · exact absurd (h.1 _ hx) (Nat.lt_irrefl _)
        · exact hx'
      · rcases List.mem_cons.mp ((hm x).mpr (List.mem_cons_of_mem _ hx)) with rfl | hx'
        · exact absurd (h'.1 _ hx) (Nat.lt_irrefl _)
        · exact hx'

end Sys2Proof.Machine
end

