-- ==== Sys2Proof/Laws/State.lean ====
section
/-!
SUPPORT. One lemma per field for each update of the state, so that no later proof unfolds a record update.
-/

namespace Sys2Proof.Machine

@[simp] theorem setStatus_status (s : State) (v : Byte) : (setStatus s v).regs.status = v := rfl
@[simp] theorem setStatus_keyPtr (s : State) (v : Byte) : (setStatus s v).regs.keyPtr = s.regs.keyPtr := rfl
@[simp] theorem setStatus_ivPtr (s : State) (v : Byte) : (setStatus s v).regs.ivPtr = s.regs.ivPtr := rfl
@[simp] theorem setStatus_aadPtr (s : State) (v : Byte) : (setStatus s v).regs.aadPtr = s.regs.aadPtr := rfl
@[simp] theorem setStatus_aadLen (s : State) (v : Byte) : (setStatus s v).regs.aadLen = s.regs.aadLen := rfl
@[simp] theorem setStatus_dinPtr (s : State) (v : Byte) : (setStatus s v).regs.dinPtr = s.regs.dinPtr := rfl
@[simp] theorem setStatus_dinLen (s : State) (v : Byte) : (setStatus s v).regs.dinLen = s.regs.dinLen := rfl
@[simp] theorem setStatus_doutPtr (s : State) (v : Byte) : (setStatus s v).regs.doutPtr = s.regs.doutPtr := rfl
@[simp] theorem setStatus_tagPtr (s : State) (v : Byte) : (setStatus s v).regs.tagPtr = s.regs.tagPtr := rfl
@[simp] theorem setStatus_wsPtr (s : State) (v : Byte) : (setStatus s v).regs.wsPtr = s.regs.wsPtr := rfl
@[simp] theorem setStatus_wsLen (s : State) (v : Byte) : (setStatus s v).regs.wsLen = s.regs.wsLen := rfl
@[simp] theorem setStatus_mem (s : State) (v : Byte) : (setStatus s v).mem = s.mem := rfl
@[simp] theorem setStatus_moves (s : State) (v : Byte) : (setStatus s v).moves = s.moves := rfl
@[simp] theorem setStatus_replies (s : State) (v : Byte) : (setStatus s v).replies = s.replies := rfl

@[simp] theorem setMem_regs (s : State) (m : Memory) : (setMem s m).regs = s.regs := rfl
@[simp] theorem setMem_mem (s : State) (m : Memory) : (setMem s m).mem = m := rfl
@[simp] theorem setMem_moves (s : State) (m : Memory) : (setMem s m).moves = s.moves := rfl
@[simp] theorem setMem_replies (s : State) (m : Memory) : (setMem s m).replies = s.replies := rfl

@[simp] theorem raiseErr_regs (e : ErrCode) (s : State) :
    (raiseErr e s).regs = { s.regs with status := statusOfErr e } := rfl
@[simp] theorem raiseErr_mem (e : ErrCode) (s : State) : (raiseErr e s).mem = s.mem := rfl
@[simp] theorem raiseErr_moves (e : ErrCode) (s : State) : (raiseErr e s).moves = s.moves := rfl
@[simp] theorem raiseErr_replies (e : ErrCode) (s : State) : (raiseErr e s).replies = s.replies := rfl

@[simp] theorem completeOk_regs (s : State) : (completeOk s).regs = { s.regs with status := statusOk } := rfl
@[simp] theorem completeOk_mem (s : State) : (completeOk s).mem = s.mem := rfl
@[simp] theorem completeOk_moves (s : State) : (completeOk s).moves = s.moves := rfl
@[simp] theorem completeOk_replies (s : State) : (completeOk s).replies = s.replies := rfl

@[simp] theorem reply_regs (s : State) (a : Reply) : (reply s a).regs = s.regs := rfl
@[simp] theorem reply_mem (s : State) (a : Reply) : (reply s a).mem = s.mem := rfl
@[simp] theorem reply_moves (s : State) (a : Reply) : (reply s a).moves = s.moves := rfl
@[simp] theorem reply_replies (s : State) (a : Reply) : (reply s a).replies = s.replies ++ [a] := rfl

@[simp] theorem resetEvent_regs (s : State) : (resetEvent s).regs = Regs.reset := rfl
@[simp] theorem resetEvent_mem (s : State) : (resetEvent s).mem = s.mem := rfl
@[simp] theorem resetEvent_moves (s : State) : (resetEvent s).moves = s.moves := rfl
@[simp] theorem resetEvent_replies (s : State) : (resetEvent s).replies = s.replies := rfl

@[simp] theorem withCommand_regs (s : State) (v : Nat) : (withCommand s v).regs = s.regs := rfl
@[simp] theorem withCommand_mem (s : State) (v : Nat) : (withCommand s v).mem = s.mem := rfl
@[simp] theorem withCommand_replies (s : State) (v : Nat) : (withCommand s v).replies = s.replies := rfl
@[simp] theorem withCommand_moves (s : State) (v : Nat) : (withCommand s v).moves = .regWrite 0 v :: s.moves := rfl

/-- The STATUS value of each error, R256. -/
theorem statusOfErr_value :
    statusOfErr .invalidBuffer = 0x11#8 ∧ statusOfErr .unalignedInput = 0x21#8 ∧ statusOfErr .emptyInput = 0x31#8
      ∧ statusOfErr .sizeOverflow = 0x41#8 ∧ statusOfErr .insufficientWorkspace = 0x51#8
      ∧ statusOfErr .authenticationFailure = 0x61#8 ∧ statusOfErr .illegalCommand = 0x71#8 := by decide

/-- A write to STATUS leaves a register write's target alone and the other way round: STATUS is read-only to the host,
R35. -/
theorem writeReg_status (c : Config) (r : Regs) (v : Nat) (x : RegName) : (writeReg c r v x).status = r.status := by
  cases x <;> rfl

end Sys2Proof.Machine
end

