-- ==== Sys2Proof/Laws/Commands.lean ====
section
/-!
SUPPORT. What the shared operations of the commands can do, each said once: the precondition checks, the region
checks, the guard, the exit, and the two bodies.
-/

namespace Sys2Proof.Machine

/-! ## The checks -/

theorem workspaceShort_iff (c : Config) (i : Instr) (r : Regs) :
    workspaceShort c i r = true ↔ r.wsLen.toNat < wsMin c i := decide_eq_true_iff

theorem outputAbsent_iff (i : Instr) (r : Regs) : outputAbsent i r = true ↔ i ≠ .gcmDec ∧ r.doutPtr = 0 := by
  cases i <;> simp [outputAbsent]

theorem inputEmpty_iff (r : Regs) : inputEmpty r = true ↔ r.dinLen.toNat = 0 ∧ r.aadLen.toNat = 0 := decide_eq_true_iff

theorem inputUnaligned_iff (i : Instr) (r : Regs) :
    inputUnaligned i r = true ↔ i ≠ .gcmEnc ∧ r.dinLen.toNat % 16 ≠ 0 := by
  cases i
  · simp [inputUnaligned]
  · exact decide_eq_true_iff.trans ⟨fun h => ⟨by decide, h⟩, fun h => h.2⟩
  · exact decide_eq_true_iff.trans ⟨fun h => ⟨by decide, h⟩, fun h => h.2⟩

theorem inputTooLong_iff (r : Regs) : inputTooLong r = true ↔ 255 < r.dinLen.toNat ∨ 255 < r.aadLen.toNat :=
  decide_eq_true_iff

/-- PRECHECK passes exactly when every precondition is met (R255). -/
theorem precheck_eq_none_iff (c : Config) (i : Instr) (r : Regs) : precheck c i r = none ↔ PreconditionsMet c i r := by
  simp only [precheck, PreconditionsMet, workspaceShort_iff, outputAbsent_iff, inputEmpty_iff, inputUnaligned_iff,
    inputTooLong_iff]
  constructor
  · intro h
    (repeat' split at h) <;> first | exact absurd h (Option.some_ne_none _) | skip
    rename_i h1 h2 h3 h4 h5
    exact ⟨by omega, fun hi hd => h2 ⟨hi, hd⟩, h3, fun hi => Decidable.byContradiction fun hd => h4 ⟨hi, hd⟩, by omega, by omega⟩
  · rintro ⟨h1, h2, h3, h4, h5, h6⟩
    rw [if_neg (by omega), if_neg fun h => h2 h.1 h.2, if_neg h3, if_neg fun h => h.2 (h4 h.1), if_neg (by omega)]

/-- PRECHECK reports the first failing check (R255). -/
theorem precheck_cases {c : Config} {i : Instr} {r : Regs} {e : ErrCode} (h : precheck c i r = some e) :
    (e = .insufficientWorkspace ∧ r.wsLen.toNat < wsMin c i)
      ∨ (e = .invalidBuffer ∧ i ≠ .gcmDec ∧ r.doutPtr = 0)
      ∨ (e = .emptyInput ∧ r.dinLen.toNat = 0 ∧ r.aadLen.toNat = 0)
      ∨ (e = .unalignedInput ∧ i ≠ .gcmEnc ∧ r.dinLen.toNat % 16 ≠ 0)
      ∨ (e = .sizeOverflow ∧ (255 < r.dinLen.toNat ∨ 255 < r.aadLen.toNat)) := by
  simp only [precheck, workspaceShort_iff, outputAbsent_iff, inputEmpty_iff, inputUnaligned_iff, inputTooLong_iff] at h
  (repeat' split at h) <;> simp_all

/-- The region test on numbers is validity of the address set (R66). -/
theorem regionValid_iff (c : Config) (p n : Nat) : regionValid c p n = true ↔ ValidSet c p n := by
  simp only [regionValid, decide_eq_true_eq, ValidSet, inRegion]
  constructor
  · intro h a ha
    omega
  · intro h
    by_cases hn : n = 0
    · exact .inl hn
    · have h1 := h p (by omega)
      have h2 := h (p + n - 1) (by omega)
      omega

/-- The disjointness test on numbers is disjointness of the address sets (R67). -/
theorem regionsDisjoint_iff (p n q m : Nat) : regionsDisjoint p n q m = true ↔ DisjointSets p n q m := by
  simp only [regionsDisjoint, decide_eq_true_eq, DisjointSets, inRegion]
  constructor
  · intro h a ha
    omega
  · intro h
    by_cases h1 : n = 0
    · exact .inl h1
    by_cases h2 : m = 0
    · exact .inr (.inl h2)
    have h3 := h p
    have h4 := h q
    omega

theorem disjointSets_comm (p n q m : Nat) : DisjointSets p n q m ↔ DisjointSets q m p n :=
  ⟨DisjointSets.symm, DisjointSets.symm⟩

/-- The validity half of the region checks (R66). -/
theorem regionsValid_iff (c : Config) (i : Instr) (r : Regs) :
    (regionsOf i r).all (fun u => regionValid c u.base u.len) = true ↔ RegionsValid c r := by
  simp only [regionsOf, List.all_cons, List.all_nil, Bool.and_true, Bool.and_eq_true, regionValid_iff, RegionsValid,
    dataLen, aadLenOf]

/-- The disjointness half of the region checks (R67). -/
theorem regionsApart_iff (i : Instr) (r : Regs) : allCompatible (regionsOf i r) = true ↔ RegionsApart i r := by
  cases i <;>
    simp only [regionsOf, allCompatible, List.all_cons, List.all_nil, compatible, writesTag, doutExtent, roundUp16,
      blockCount, dataLen, aadLenOf, Bool.not_true, Bool.not_false, Bool.and_true, Bool.and_false,
      Bool.true_and, Bool.false_or, Bool.true_or, Bool.and_eq_true, regionsDisjoint_iff, RegionsApart, writtenExtents,
      readExtents, List.pairwise_cons, List.mem_cons, List.not_mem_nil, or_false, forall_eq_or_imp, forall_eq,
      List.Pairwise.nil, and_true, IsEmpty.forall_iff, implies_true] <;>
    constructor <;> intro h <;> (repeat' constructor) <;>
    first
    | simp only [h]
    | (rw [disjointSets_comm]; simp only [h])

/-- What the region checks answer (R66, R67, R201): an invalid region is refused first, then an overlap. -/
theorem regionCheck_eq (c : Config) (i : Instr) (r : Regs) [Decidable (RegionsValid c r)] [Decidable (RegionsApart i r)] :
    regionCheck c i r
      = if RegionsValid c r then if RegionsApart i r then none else some .overlappingRegions
        else some .invalidRegion := by
  simp only [regionCheck, regionsValid_iff, regionsApart_iff]

/-- The region checks pass exactly when every region is valid and apart from what it must not meet. -/
theorem regionCheck_eq_none_iff (c : Config) (i : Instr) (r : Regs) :
    regionCheck c i r = none ↔ RegionsValid c r ∧ RegionsApart i r := by
  classical
  rw [regionCheck_eq]
  by_cases h1 : RegionsValid c r <;> by_cases h2 : RegionsApart i r <;> simp [h1, h2]

/-! ## The guard -/

/-- Everything the guard of a command can answer: a precondition error, a refusal, or the body. -/
theorem guarded_cases (c : Config) (op : Instr) (body : State → State) (s : State) :
    (∃ e, precheck c op s.regs = some e ∧ guarded c op body s = .next (raiseErr e s))
      ∨ (∃ r, PreconditionsMet c op s.regs ∧ regionCheck c op s.regs = some r ∧ guarded c op body s = .refused r)
      ∨ (Ready c op s.regs ∧ guarded c op body s = .next (body s)) := by
  unfold guarded
  cases hp : precheck c op s.regs with
  | some e => exact .inl ⟨e, rfl, rfl⟩
  | none =>
    have hm := (precheck_eq_none_iff c op s.regs).mp hp
    cases hr : regionCheck c op s.regs with
    | some r => exact .inr (.inl ⟨r, hm, rfl, rfl⟩)
    | none => exact .inr (.inr ⟨⟨hm, (regionCheck_eq_none_iff c op s.regs).mp hr⟩, rfl⟩)

/-- A command that answers a next state either reported a precondition error or ran its body. -/
theorem guarded_next {c : Config} {op : Instr} {body : State → State} {s t : State}
    (h : guarded c op body s = .next t) :
    (∃ e, precheck c op s.regs = some e ∧ t = raiseErr e s) ∨ (Ready c op s.regs ∧ t = body s) := by
  rcases guarded_cases c op body s with ⟨e, he, hg⟩ | ⟨r, -, -, hg⟩ | ⟨hr, hg⟩
  · rw [hg] at h
    exact .inl ⟨e, he, by injection h with h; exact h.symm⟩
  · rw [hg] at h
    cases h
  · rw [hg] at h
    exact .inr ⟨hr, by injection h with h; exact h.symm⟩

/-- A ready command runs its body. -/
theorem guarded_of_ready {c : Config} {op : Instr} {s : State} (body : State → State) (h : Ready c op s.regs) :
    guarded c op body s = .next (body s) := by
  unfold guarded
  rw [(precheck_eq_none_iff c op s.regs).mpr h.1, (regionCheck_eq_none_iff c op s.regs).mpr h.2]

/-! ## The exit -/

/-- ERASE_WS zeroes every byte of the workspace (R236). -/
theorem readByte_eraseWs_of_mem (c : Config) (m : Memory) {r : Regs} {a : Nat} (h : inRegion r.wsPtr r.wsLen.toNat a) :
    readByte c (eraseWs c m r) a = 0x00#8 := by
  unfold eraseWs
  rw [readByte_writeBytes, if_pos (by rwa [List.length_replicate]), List.getD_eq_getElem?_getD, List.getElem?_replicate]
  split <;> rfl

/-- ERASE_WS changes no byte outside the workspace (R236). -/
theorem readByte_eraseWs_of_not_mem (c : Config) (m : Memory) {r : Regs} {a : Nat}
    (h : ¬ inRegion r.wsPtr r.wsLen.toNat a) : readByte c (eraseWs c m r) a = readByte c m a :=
  readByte_writeBytes_of_not_mem c m (by rwa [List.length_replicate])

/-- Placing working blocks that fit in `n` bytes leaves every address outside those bytes alone. -/
theorem readByte_populate (c : Config) (m : Memory) (p n : Nat) (w : WorkBlocks)
    (hw : ∀ q ∈ workspaceImage w, q.1 + 16 ≤ n) {a : Nat} (ha : ¬ inRegion p n a) :
    readByte c (populate c m p w) a = readByte c m a := by
  unfold populate
  generalize workspaceImage w = l at hw
  induction l generalizing m with
  | nil => rfl
  | cons q l ih =>
    simp only [List.foldl_cons]
    rw [ih _ fun q hq => hw q (List.mem_cons_of_mem _ hq)]
    refine readByte_writeBytes_of_not_mem c m fun hq => ha ?_
    have h1 := hw q (by simp)
    simp only [inRegion, length_blockBytes] at hq ⊢
    omega

/-- Placing working blocks inside the address space keeps the canonical form. -/
theorem memoryWf_populate {c : Config} {m : Memory} {p n : Nat} {w : WorkBlocks} (h : memoryWf c m = true)
    (hw : ∀ q ∈ workspaceImage w, q.1 + 16 ≤ n) (hp : p + n ≤ 2 ^ c.AW) : memoryWf c (populate c m p w) = true := by
  unfold populate
  generalize workspaceImage w = l at hw
  induction l generalizing m with
  | nil => exact h
  | cons q l ih =>
    simp only [List.foldl_cons]
    have h1 := hw q (by simp)
    exact ih (memoryWf_writeBytes h (.inr (by simp only [length_blockBytes]; omega)))
      fun q hq => hw q (List.mem_cons_of_mem _ hq)

/-- The common blocks end at 0x80, the tail at 0x90, the recomputed tag at 0x90 and the supplied one at 0xA0 (R234). -/
theorem workspaceImage_fits (w : WorkBlocks) (n : Nat) (h : 0x80 ≤ n) (ht : w.tail ≠ none → 0x90 ≤ n)
    (hc : w.tagc ≠ none → 0x90 ≤ n) (hr : w.tagr ≠ none → 0xA0 ≤ n) : ∀ q ∈ workspaceImage w, q.1 + 16 ≤ n := by
  intro q hq
  simp only [workspaceImage, List.mem_append, List.mem_cons, List.mem_map, Option.mem_toList, List.not_mem_nil,
    or_false] at hq
  rcases hq with ((hq | ⟨x, hx, rfl⟩) | ⟨x, hx, rfl⟩) | ⟨x, hx, rfl⟩
  · rcases hq with rfl | rfl | rfl | rfl | rfl | rfl | rfl | rfl <;> simp only <;> omega
  · exact ht (by simp [hx])
  · exact hc (by simp [hx])
  · exact hr (by simp [hx])

/-- The exit leaves every byte outside the workspace as the body left it. -/
theorem readByte_exit (c : Config) (m : Memory) {r : Regs} {w : WorkBlocks}
    (hw : ∀ q ∈ workspaceImage w, q.1 + 16 ≤ r.wsLen.toNat) {a : Nat} (h : ¬ inRegion r.wsPtr r.wsLen.toNat a) :
    readByte c (eraseWs c (populate c m r.wsPtr w) r) a = readByte c m a := by
  rw [readByte_eraseWs_of_not_mem c _ h, readByte_populate c m _ _ w hw h]

/-- The exit keeps the canonical form. -/
theorem memoryWf_exit {c : Config} {m : Memory} {r : Regs} {w : WorkBlocks} (h : memoryWf c m = true)
    (hw : ∀ q ∈ workspaceImage w, q.1 + 16 ≤ r.wsLen.toNat) (hv : ValidSet c r.wsPtr r.wsLen.toNat)
    (hn : r.wsLen.toNat ≠ 0) : memoryWf c (eraseWs c (populate c m r.wsPtr w) r) = true := by
  have hp : r.wsPtr + r.wsLen.toNat ≤ 2 ^ c.AW := by
    have := (hv (r.wsPtr + r.wsLen.toNat - 1) ⟨by omega, by omega⟩).2
    omega
  exact memoryWf_writeBytes (memoryWf_populate h hw hp) (.inr (by simpa using hp))

/-! ## The bodies -/

@[simp] theorem encryptBody_regs (c : Config) (ct : Bytes) (tail : Option Block) (s : State) :
    (encryptBody c ct tail s).regs = { s.regs with status := 0x03#8 } := rfl

@[simp] theorem encryptBody_moves (c : Config) (ct : Bytes) (tail : Option Block) (s : State) :
    (encryptBody c ct tail s).moves = s.moves := rfl

@[simp] theorem encryptBody_replies (c : Config) (ct : Bytes) (tail : Option Block) (s : State) :
    (encryptBody c ct tail s).replies = s.replies := rfl

/-- The regions of a ready encrypt command that its body relies on. -/
theorem ready_encrypt {c : Config} {i : Instr} {r : Regs} (hi : i ≠ .gcmDec) (h : Ready c i r) :
    DisjointSets r.doutPtr r.dinLen.toNat r.aadPtr r.aadLen.toNat
      ∧ DisjointSets r.doutPtr r.dinLen.toNat r.tagPtr 16
      ∧ DisjointSets r.doutPtr r.dinLen.toNat r.wsPtr r.wsLen.toNat
      ∧ DisjointSets r.wsPtr r.wsLen.toNat r.tagPtr 16 := by
  obtain ⟨-, -, hp, hr⟩ := h
  cases i with
  | gcmDec => exact absurd rfl hi
  | gcmEnc =>
    simp only [writtenExtents, readExtents, List.pairwise_cons, List.mem_cons, List.not_mem_nil, or_false,
      forall_eq_or_imp, forall_eq] at hp hr
    exact ⟨hr.1.2.2.1.mono (by omega), hp.1.2.mono (by omega), hp.1.1.mono (by omega), hp.2.1⟩
  | gcmEncp =>
    simp only [writtenExtents, readExtents, List.pairwise_cons, List.mem_cons, List.not_mem_nil, or_false,
      forall_eq_or_imp, forall_eq] at hp hr
    exact ⟨hr.1.2.2.1, hp.1.2, hp.1.1, hp.2.1⟩

/-- The memory an encrypt command ends with: the ciphertext and its tag written, then the exit. -/
theorem encryptBody_mem_eq {c : Config} {i : Instr} {s : State} {ct : Bytes} (tail : Option Block) (hi : i ≠ .gcmDec)
    (hready : Ready c i s.regs) (hct : ct.length = s.regs.dinLen.toNat) :
    ∃ w : WorkBlocks, w.tail = tail ∧ w.tagc = none ∧ w.tagr = none ∧
      (encryptBody c ct tail s).mem
        = eraseWs c (populate c (writeBytes c (writeBytes c s.mem s.regs.doutPtr ct) s.regs.tagPtr
            (blockBytes (tagFor c s ct))) s.regs.wsPtr w) s.regs := by
  obtain ⟨hda, -, -, -⟩ := ready_encrypt hi hready
  rw [← hct] at hda
  have haad : aadOf c s (memAfterData c s ct) = aadIn c s := readBytes_writeBytes_of_disjoint c _ hda
  have hback : readBytes c (memAfterData c s ct) s.regs.doutPtr (dataLen s.regs) = ct :=
    readBytes_writeBytes_self c _ _ _ hct
  refine ⟨workBlocksAfter c.E (keyOf c s) (subkeyOf c s) (aadIn c s) ct (j0Of c s) tail none none, rfl, rfl, rfl, ?_⟩
  simp only [encryptBody, completeOk_mem, setMem_mem, haad, hback]
  rfl

/-- What the body of an encrypt command leaves in MEM, said once: the ciphertext, its tag, a zero workspace, and
everything else as it was. -/
theorem encryptBody_mem {c : Config} {i : Instr} {s : State} {ct : Bytes} {tail : Option Block} (hi : i ≠ .gcmDec)
    (hready : Ready c i s.regs) (hct : ct.length = s.regs.dinLen.toNat) (h80 : 0x80 ≤ s.regs.wsLen.toNat)
    (htail : tail ≠ none → 0x90 ≤ s.regs.wsLen.toNat) :
    outputIn c (encryptBody c ct tail s) = ct
      ∧ tagIn c (encryptBody c ct tail s) = blockBytes (tagFor c s ct)
      ∧ WorkspaceZero c (encryptBody c ct tail s)
      ∧ ∀ a, ¬ inRegion s.regs.doutPtr s.regs.dinLen.toNat a → ¬ inRegion s.regs.tagPtr 16 a →
          ¬ inRegion s.regs.wsPtr s.regs.wsLen.toNat a →
          readByte c (encryptBody c ct tail s).mem a = readByte c s.mem a := by
  obtain ⟨-, hdt, hdw, hwt⟩ := ready_encrypt hi hready
  obtain ⟨w, hwtail, hwc, hwr, hmem⟩ := encryptBody_mem_eq tail hi hready hct
  have hw := workspaceImage_fits w _ h80 (by rwa [hwtail]) (fun h => absurd hwc h) (fun h => absurd hwr h)
  refine ⟨?_, ?_, ?_, ?_⟩
  · rw [outputIn, hmem]
    refine Eq.trans (readBytes_congr fun a ha => ?_) (readBytes_writeBytes_self c s.mem s.regs.doutPtr ct hct)
    rw [readByte_exit c _ hw fun h => hdw a ⟨ha, h⟩]
    exact readByte_writeBytes_of_not_mem c _ fun h => hdt a ⟨ha, by simpa using h⟩
  · rw [tagIn, hmem]
    refine Eq.trans (readBytes_congr fun a ha => ?_) (readBytes_writeBytes_self c
      (writeBytes c s.mem s.regs.doutPtr ct) s.regs.tagPtr _ (length_blockBytes (tagFor c s ct)))
    exact readByte_exit c _ hw fun h => hwt a ⟨h, ha⟩
  · intro k hk
    rw [hmem]
    exact readByte_eraseWs_of_mem c _ ⟨Nat.le_add_right _ _, Nat.add_lt_add_left hk _⟩
  · intro a h1 h2 h3
    rw [hmem, readByte_exit c _ hw h3, readByte_writeBytes_of_not_mem c _ (by rwa [length_blockBytes])]
    exact readByte_writeBytes_of_not_mem c _ (by rwa [hct])

/-- The regions of a ready GCM.DEC that its body relies on. -/
theorem ready_decrypt {c : Config} {r : Regs} (h : Ready c .gcmDec r) :
    DisjointSets r.doutPtr r.dinLen.toNat r.aadPtr r.aadLen.toNat
      ∧ DisjointSets r.doutPtr r.dinLen.toNat r.tagPtr 16
      ∧ DisjointSets r.doutPtr r.dinLen.toNat r.wsPtr r.wsLen.toNat := by
  obtain ⟨-, -, hp, hr⟩ := h
  simp only [writtenExtents, readExtents, List.pairwise_cons, List.mem_cons, List.not_mem_nil, or_false,
    forall_eq_or_imp, forall_eq] at hp hr
  exact ⟨hr.1.2.2.1, hr.1.2.2.2.2, hp.1⟩

/-- STATUS after the body of GCM.DEC: success when the comparator accepts, AuthenticationFailure when it does not. -/
theorem decryptBody_regs {c : Config} {s : State} (hready : Ready c .gcmDec s.regs) :
    (decryptBody c s).regs
      = { s.regs with status := if tagsEqual (tagFor c s (dataIn c s)) (blockOfBytes (tagIn c s)) then 0x03#8 else 0x61#8 } := by
  obtain ⟨hda, hdt, hdw⟩ := ready_decrypt hready
  have hl : (ctrpBytes c.E (keyOf c s) (incr32 (j0Of c s)) (dataOf c s)).length = s.regs.dinLen.toNat := by
    rw [length_ctrpBytes] <;> simp [dataOf, dataLen, hready.1.2.2.2.1]
  rw [← hl] at hda hdt
  have haad : aadOf c s (memAfterData c s (ctrpBytes c.E (keyOf c s) (incr32 (j0Of c s)) (dataOf c s))) = aadIn c s :=
    readBytes_writeBytes_of_disjoint c _ hda
  have htag : readBytes c (memAfterData c s (ctrpBytes c.E (keyOf c s) (incr32 (j0Of c s)) (dataOf c s)))
      s.regs.tagPtr 16 = tagIn c s := readBytes_writeBytes_of_disjoint c _ hdt
  simp only [decryptBody, haad, htag]
  have he : gentag c.E (keyOf c s) (subkeyOf c s) (aadIn c s) (dataOf c s) (j0Of c s) = tagFor c s (dataIn c s) := rfl
  rw [he]
  split <;> rfl

theorem decryptBody_moves (c : Config) (s : State) : (decryptBody c s).moves = s.moves := by
  simp only [decryptBody]; split <;> rfl

theorem decryptBody_replies (c : Config) (s : State) : (decryptBody c s).replies = s.replies := by
  simp only [decryptBody]; split <;> rfl

/-- The memory GCM.DEC ends with: the plaintext written, then the exit. -/
theorem decryptBody_mem_eq (c : Config) (s : State) :
    ∃ w : WorkBlocks, (decryptBody c s).mem
        = eraseWs c (populate c (writeBytes c s.mem s.regs.doutPtr
            (ctrpBytes c.E (keyIn c s) (incr32 (counterIn c s)) (dataIn c s))) s.regs.wsPtr w) s.regs := by
  simp only [decryptBody]
  split <;> exact ⟨_, rfl⟩

/-- What the body of GCM.DEC leaves in MEM, said once, whatever the comparison gives: the plaintext, a zero workspace,
and everything else as it was. -/
theorem decryptBody_mem {c : Config} {s : State} (hready : Ready c .gcmDec s.regs) (hA0 : 0xA0 ≤ s.regs.wsLen.toNat) :
    outputIn c (decryptBody c s) = ctrpBytes c.E (keyIn c s) (incr32 (counterIn c s)) (dataIn c s)
      ∧ WorkspaceZero c (decryptBody c s)
      ∧ ∀ a, ¬ inRegion s.regs.doutPtr s.regs.dinLen.toNat a → ¬ inRegion s.regs.wsPtr s.regs.wsLen.toNat a →
          readByte c (decryptBody c s).mem a = readByte c s.mem a := by
  obtain ⟨-, -, hdw⟩ := ready_decrypt hready
  have hl : (ctrpBytes c.E (keyIn c s) (incr32 (counterIn c s)) (dataIn c s)).length = s.regs.dinLen.toNat := by
    rw [length_ctrpBytes] <;> simp [dataIn, hready.1.2.2.2.1]
  obtain ⟨w, hmem⟩ := decryptBody_mem_eq c s
  have hw := workspaceImage_fits w s.regs.wsLen.toNat (by omega) (fun _ => by omega) (fun _ => by omega) (fun _ => hA0)
  refine ⟨?_, ?_, ?_⟩
  · rw [outputIn, hmem, decryptBody_regs hready]
    refine Eq.trans (readBytes_congr fun a ha => ?_) (readBytes_writeBytes_self c s.mem s.regs.doutPtr _ hl)
    exact readByte_exit c _ hw fun h => hdw a ⟨ha, h⟩
  · rw [WorkspaceZero, hmem, decryptBody_regs hready]
    exact fun k hk => readByte_eraseWs_of_mem c _ ⟨Nat.le_add_right _ _, Nat.add_lt_add_left hk _⟩
  · intro a h1 h3
    rw [hmem, readByte_exit c _ hw h3]
    exact readByte_writeBytes_of_not_mem c _ (by rwa [hl])

end Sys2Proof.Machine
end

