-- ==== Sys2Proof/Laws/Galois.lean ====
section
/-!
SUPPORT. Everything the multiplier's loop does, said once: after `n` iterations `V` is `y` stepped `n` times and `Z` is
the sum of the multiples the set bits of `x` selected.
-/

namespace Sys2Proof.Machine

/-- The running multiple after `n` iterations (R141). -/
def multipleAfter : Nat → Block → Block
  | 0, y => y
  | n + 1, y => gfStepV (multipleAfter n y)

/-- The accumulator after `n` iterations (R141). -/
def sumAfter (x y : Block) : Nat → Block
  | 0 => 0#128
  | n + 1 => sumAfter x y n ^^^ (if fbit x n then multipleAfter n y else 0#128)

/-- The loop of GFMUL. -/
theorem gfStep_foldl (x y : Block) (n : Nat) :
    (List.range n).foldl (gfStep x) (0#128, y) = (sumAfter x y n, multipleAfter n y) := by
  induction n with
  | zero => rfl
  | succ n ih =>
    simp only [List.range_succ, List.foldl_append, List.foldl_cons, List.foldl_nil, ih, gfStep, sumAfter,
      multipleAfter, xor128]
    split <;> simp

/-- The product as a sum over the bits of `x`. -/
theorem gfmul_eq_sumAfter (x y : Block) : gfmul x y = sumAfter x y 128 := by rw [gfmul, gfmulRun, gfStep_foldl]

/-- A field bit of a sum. -/
theorem fbit_xor (a b : Block) (i : Nat) : fbit (a ^^^ b) i = (fbit a i ^^ fbit b i) := by simp [fbit, byteOf_xor]

/-- One step of the running multiple is linear. -/
theorem gfStepV_xor (a b : Block) : gfStepV (a ^^^ b) = gfStepV a ^^^ gfStepV b := by
  simp only [gfStepV, shr1, BitVec.getLsbD_xor, BitVec.ushiftRight_xor_distrib]
  rcases Bool.eq_false_or_eq_true (BitVec.getLsbD a 0) with h₁ | h₁ <;>
    rcases Bool.eq_false_or_eq_true (BitVec.getLsbD b 0) with h₂ | h₂ <;>
    simp only [h₁, h₂, Bool.xor_true, Bool.xor_false, Bool.not_true, Bool.not_false, if_true, Bool.false_eq_true,
      if_false]
  · have : a >>> 1 ^^^ reductionConstant ^^^ (b >>> 1 ^^^ reductionConstant)
        = a >>> 1 ^^^ b >>> 1 ^^^ (reductionConstant ^^^ reductionConstant) := by ac_rfl
    simp [this]
  · ac_rfl
  · ac_rfl

/-- The running multiple is linear in `y`. -/
theorem multipleAfter_xor (n : Nat) (a b : Block) :
    multipleAfter n (a ^^^ b) = multipleAfter n a ^^^ multipleAfter n b := by
  induction n with
  | zero => rfl
  | succ n ih => simp only [multipleAfter, ih, gfStepV_xor]

end Sys2Proof.Machine
end

