-- ==== Sys2Proof/Laws/PerInstr.lean ====
section
/-!
SUPPORT. Statements made for every instruction, one lemma per constructor.
-/

namespace Sys2Proof.Laws.Encoding

/-- The instruction is well formed and a row of the opcode table that carries its opcode decodes to it (R90, R91). -/
def Statement (i : Instr) : Prop := i.wellFormed = true ∧ decodeTableWord 8 (encode i).toNat = some i

theorem gcmEnc : Statement .gcmEnc := by unfold Statement; decide

theorem gcmEncp : Statement .gcmEncp := by unfold Statement; decide

theorem gcmDec : Statement .gcmDec := by unfold Statement; decide

end Sys2Proof.Laws.Encoding
end

