-- ==== Sys2Proof/Laws/Step.lean ====
section
/-!
SUPPORT. Everything a command and a step can do, said once: the inversion lemmas from which frames and invariants
follow.
-/

namespace Sys2Proof.Machine

/-- The dispatch is the command of the machine's configuration, arm by arm. -/
theorem exec_eq_runCommand (i : Instr) (s : State) : exec i s = runCommand Config.machine i s := by cases i <;> rfl

/-- The ciphertext an encrypt command computes: the unpadded variant for GCM.ENC, the padded one for GCM.ENCP (R202,
R204). -/
def cipherOf (c : Config) (i : Instr) (s : State) : Bytes :=
  match i with
  | .gcmEnc => ctr c.E (keyIn c s) (incr32 (counterIn c s)) (dataIn c s)
  | .gcmEncp => ctrpBytes c.E (keyIn c s) (incr32 (counterIn c s)) (dataIn c s)
  | .gcmDec => ctrpBytes c.E (keyIn c s) (incr32 (counterIn c s)) (dataIn c s)

/-- The tail an encrypt command stages (R39). -/
def tailOf (c : Config) (i : Instr) (s : State) : Option Block :=
  match i with
  | .gcmEnc => stagedTail (dataIn c s)
  | .gcmEncp => none
  | .gcmDec => none

/-- The body a command runs. -/
def bodyOf (c : Config) (i : Instr) (s : State) : State :=
  match i with
  | .gcmEnc => encryptBody c (cipherOf c .gcmEnc s) (tailOf c .gcmEnc s) s
  | .gcmEncp => encryptBody c (cipherOf c .gcmEncp s) (tailOf c .gcmEncp s) s
  | .gcmDec => decryptBody c s

/-- A command is its guard in front of its body (R201). -/
theorem runCommand_eq_guarded (c : Config) (i : Instr) (s : State) :
    runCommand c i s = guarded c i (bodyOf c i) s := by cases i <;> rfl

/-- Everything a command that answers can have done. -/
theorem runCommand_next {c : Config} {i : Instr} {s t : State} (h : runCommand c i s = .next t) :
    (∃ e, precheck c i s.regs = some e ∧ t = raiseErr e s) ∨ (Ready c i s.regs ∧ t = bodyOf c i s) :=
  guarded_next (by rwa [runCommand_eq_guarded] at h)

/-- A ready command runs its body. -/
theorem runCommand_of_ready {c : Config} {i : Instr} {s : State} (h : Ready c i s.regs) :
    runCommand c i s = .next (bodyOf c i s) := by
  rw [runCommand_eq_guarded]
  exact guarded_of_ready (bodyOf c i) h

/-- A ready encrypt command produces as many bytes as it reads (R160, R203, R204). -/
theorem length_cipherOf {c : Config} {i : Instr} {s : State} (h : PreconditionsMet c i s.regs) :
    (cipherOf c i s).length = s.regs.dinLen.toNat := by
  have hal := h.2.2.2.1
  cases i with
  | gcmEnc => simp [cipherOf, dataIn]
  | gcmEncp =>
    have := hal (by decide)
    simp [cipherOf, length_ctrpBytes, dataIn, this]
  | gcmDec =>
    have := hal (by decide)
    simp [cipherOf, length_ctrpBytes, dataIn, this]

/-- The minima of a well-formed configuration hold the working blocks of the layout (R231, R234). -/
theorem wsMin_of_wellFormed {c : Config} (hc : c.wellFormed = true) :
    0x90 ≤ wsMin c .gcmEnc ∧ 0x80 ≤ wsMin c .gcmEncp ∧ 0xA0 ≤ wsMin c .gcmDec := by
  simp only [Config.wellFormed, Bool.and_eq_true, decide_eq_true_eq] at hc
  exact ⟨hc.1.1.2, hc.1.2, hc.2⟩

theorem machine_wellFormed : Config.machine.wellFormed = true := by decide

/-- What the body of a ready encrypt command leaves in MEM. -/
theorem bodyOf_encrypt_mem {c : Config} {i : Instr} {s : State} (hc : c.wellFormed = true) (hi : i ≠ .gcmDec)
    (h : Ready c i s.regs) :
    outputIn c (bodyOf c i s) = cipherOf c i s
      ∧ tagIn c (bodyOf c i s) = blockBytes (tagFor c s (cipherOf c i s))
      ∧ WorkspaceZero c (bodyOf c i s)
      ∧ ∀ a, ¬ inRegion s.regs.doutPtr s.regs.dinLen.toNat a → ¬ inRegion s.regs.tagPtr 16 a →
          ¬ inRegion s.regs.wsPtr s.regs.wsLen.toNat a →
          readByte c (bodyOf c i s).mem a = readByte c s.mem a := by
  have hw := wsMin_of_wellFormed hc
  have hm := h.1.1
  have hl := length_cipherOf h.1
  cases i with
  | gcmDec => exact absurd rfl hi
  | gcmEnc => exact encryptBody_mem hi h hl (by omega) fun _ => by omega
  | gcmEncp => exact encryptBody_mem hi h hl (by omega) fun hn => absurd rfl hn

/-- The registers after the body of a ready command: STATUS alone may differ. -/
theorem bodyOf_regs {c : Config} {i : Instr} {s : State} (h : Ready c i s.regs) :
    ∃ v : Byte, (v = 0x03#8 ∨ (v = 0x61#8 ∧ i = .gcmDec)) ∧ (bodyOf c i s).regs = { s.regs with status := v } := by
  cases i with
  | gcmEnc => exact ⟨_, .inl rfl, rfl⟩
  | gcmEncp => exact ⟨_, .inl rfl, rfl⟩
  | gcmDec =>
    refine ⟨_, ?_, decryptBody_regs h⟩
    split
    · exact .inl rfl
    · exact .inr ⟨rfl, rfl⟩

@[simp] theorem bodyOf_moves (c : Config) (i : Instr) (s : State) : (bodyOf c i s).moves = s.moves := by
  cases i with
  | gcmEnc => rfl
  | gcmEncp => rfl
  | gcmDec => exact decryptBody_moves c s

@[simp] theorem bodyOf_replies (c : Config) (i : Instr) (s : State) : (bodyOf c i s).replies = s.replies := by
  cases i with
  | gcmEnc => rfl
  | gcmEncp => rfl
  | gcmDec => exact decryptBody_replies c s

/-- The body of a ready command keeps the canonical form of MEM. -/
theorem bodyOf_memoryWf {c : Config} {i : Instr} {s : State} (hc : c.wellFormed = true) (h : Ready c i s.regs)
    (hm : memoryWf c s.mem = true) : memoryWf c (bodyOf c i s).mem = true := by
  have hw := wsMin_of_wellFormed hc
  have hmin := h.1.1
  have hl := length_cipherOf h.1
  obtain ⟨-, -, -, -, hd, ht, hws⟩ := h.2.1
  have hfit : ∀ {p n : Nat}, ValidSet c p n → n = 0 ∨ p + n ≤ 2 ^ c.AW := fun {p n} hv => by
    rw [← regionValid_iff] at hv
    simp only [regionValid, decide_eq_true_eq] at hv
    omega
  have hout : ∀ {bs : Bytes}, bs.length = s.regs.dinLen.toNat →
      memoryWf c (writeBytes c s.mem s.regs.doutPtr bs) = true := fun {bs} hbs => by
    refine memoryWf_writeBytes hm ?_
    rcases hfit hd with h0 | h0
    · exact .inl (List.eq_nil_of_length_eq_zero (by omega))
    · exact .inr (by omega)
  have htag : ∀ {m : Memory} (x : Block), memoryWf c m = true →
      memoryWf c (writeBytes c m s.regs.tagPtr (blockBytes x)) = true := fun {m} x hx => by
    refine memoryWf_writeBytes hx (.inr ?_)
    have := hfit ht
    simp only [length_blockBytes]
    omega
  cases i with
  | gcmEnc =>
    obtain ⟨w, -, hc', hr', he⟩ := encryptBody_mem_eq (tailOf c .gcmEnc s) (by decide) h hl
    rw [bodyOf, he]
    exact memoryWf_exit (htag _ (hout hl)) (workspaceImage_fits w _ (by omega) (fun _ => by omega)
      (fun hn => absurd hc' hn) (fun hn => absurd hr' hn)) hws (by omega)
  | gcmEncp =>
    obtain ⟨w, ht', hc', hr', he⟩ := encryptBody_mem_eq (tailOf c .gcmEncp s) (by decide) h hl
    rw [bodyOf, he]
    exact memoryWf_exit (htag _ (hout hl)) (workspaceImage_fits w _ (by omega) (fun hn => absurd ht' hn)
      (fun hn => absurd hc' hn) (fun hn => absurd hr' hn)) hws (by omega)
  | gcmDec =>
    obtain ⟨w, he⟩ := decryptBody_mem_eq c s
    rw [bodyOf, he]
    exact memoryWf_exit (hout hl) (workspaceImage_fits w _ (by omega) (fun _ => by omega) (fun _ => by omega)
      (fun _ => by omega)) hws (by omega)

/-- The map of R21 is total on the numbers 0x0 to 0xF and on no other. -/
theorem regOfNumber_eq_none_iff (n : Nat) : regOfNumber n = none ↔ 0xF < n := by
  constructor
  · intro h
    by_contra hn
    have hall : ∀ k : Fin 16, regOfNumber k ≠ none := by decide
    exact hall ⟨n, by omega⟩ h
  · intro h
    obtain ⟨k, rfl⟩ : ∃ k, n = k + 16 := ⟨n - 16, by omega⟩
    rfl

theorem regOfNumber_numberOfReg (x : RegName) : regOfNumber (numberOfReg x) = some x := by cases x <;> rfl

theorem regOfNumber_eq_some_iff (n : Nat) (x : RegName) : regOfNumber n = some x ↔ n = numberOfReg x := by
  constructor
  · intro h
    unfold regOfNumber at h
    split at h <;> first | exact absurd h.symm (Option.some_ne_none _) | (injection h with h; subst h; rfl)
  · rintro rfl
    exact regOfNumber_numberOfReg x

/-- Everything a host move that answers can have done: a command's run, an illegal command's STATUS, a register
stored, a value read, a byte written, a reset. -/
theorem runMove_next {c : Config} {run : Instr → State → Host.Outcome State Fault Refusal} {m : HostMove} {s t : State}
    (h : runMove c run m s = .next t) :
    (∃ v i, m = .regWrite 0 v ∧ decode (opcodeOf v) = .ok i ∧ run i s = .next t)
      ∨ (∃ v e, m = .regWrite 0 v ∧ decode (opcodeOf v) = .error e ∧ t = raiseErr .illegalCommand s)
      ∨ (∃ v x, m = .regWrite (numberOfReg x) v ∧ x ≠ .cmd ∧ t = { s with regs := writeReg c s.regs v x })
      ∨ (∃ x, m = .regRead (numberOfReg x) ∧ t = reply s (.reg (numberOfReg x) (readReg c s.regs x)))
      ∨ (∃ a b, m = .memWrite a b ∧ a < 2 ^ c.AW ∧ t = setMem s (writeByte c s.mem a b))
      ∨ (∃ a, m = .memRead a ∧ a < 2 ^ c.AW ∧ t = reply s (.byte a (readByte c s.mem a)))
      ∨ (m = .reset ∧ t = resetEvent s) := by
  cases m with
  | regWrite n v =>
    simp only [runMove, regWrite] at h
    split at h
    · cases h
    · rename_i hn
      have hn : n = 0 := (regOfNumber_eq_some_iff n .cmd).mp hn
      subst hn
      unfold writeCmd at h
      split at h
      · rename_i i hd
        exact .inl ⟨v, i, rfl, hd, h⟩
      · rename_i e hd
        injection h with h
        exact .inr (.inl ⟨v, e, rfl, hd, h.symm⟩)
    · rename_i x hx hn
      injection h with h
      have hn := (regOfNumber_eq_some_iff n x).mp hn
      exact .inr (.inr (.inl ⟨v, x, by rw [hn], hx, h.symm⟩))
  | regRead n =>
    simp only [runMove, regRead] at h
    split at h
    · cases h
    · rename_i x hn
      injection h with h
      have hn := (regOfNumber_eq_some_iff n x).mp hn
      exact .inr (.inr (.inr (.inl ⟨x, by rw [hn], by rw [← hn]; exact h.symm⟩)))
  | memWrite a b =>
    simp only [runMove, hostWrite] at h
    split at h
    · rename_i ha
      injection h with h
      exact .inr (.inr (.inr (.inr (.inl ⟨a, b, rfl, ha, h.symm⟩))))
    · cases h
  | memRead a =>
    simp only [runMove, hostRead] at h
    split at h
    · rename_i ha
      injection h with h
      exact .inr (.inr (.inr (.inr (.inr (.inl ⟨a, rfl, ha, h.symm⟩)))))
    · cases h
  | reset =>
    simp only [runMove] at h
    injection h with h
    exact .inr (.inr (.inr (.inr (.inr (.inr ⟨rfl, h.symm⟩)))))

/-- A step that answers either waited or made the host's next move. -/
theorem step_next {s t : State} (h : step s = .next t) :
    (s.moves = [] ∧ t = s)
      ∨ ∃ m ms, s.moves = m :: ms ∧ runMove Config.machine exec m { s with moves := ms } = .next t := by
  unfold step stepMove at h
  split at h
  · rename_i hm
    injection h with h
    exact .inl ⟨hm, h.symm⟩
  · rename_i m ms hm
    exact .inr ⟨m, ms, hm, h⟩

/-- A step with a move waiting makes it. -/
theorem step_cons {s : State} {m : HostMove} {ms : List HostMove} (h : s.moves = m :: ms) :
    step s = runMove Config.machine exec m { s with moves := ms } := by
  unfold step stepMove
  rw [h]

end Sys2Proof.Machine
end

