-- ==== Sys2Proof/Tests/Slice0.lean ====
section
/-!
SUPPORT. Tests on the spec's own vectors (95_test_vectors.md), the well-formedness smoke tests, and one witness for
the hypotheses of every statement that has some.
-/

namespace Sys2Proof.Tests

open Sys2Proof.Machine

/-! ## Small states -/

/-- The vectors' toy cipher, `TOY(p, k) = XOR128(p, k)`, and a MEM of 0xEE bytes (95_test_vectors.md sections 2 and 3). -/
def toy : Config := { Config.machine with E := fun p k => p ^^^ k, launchByte := fun _ => 0xEE#8 }

/-- The `n` bytes of a number written in hexadecimal, the most significant first. -/
def hexBytes (n x : Nat) : Bytes := (List.range n).map (fun i => BitVec.ofNat 8 (x / 2 ^ (8 * (n - 1 - i))))

/-- The memory plan of section 3 of the vectors, with data, AAD and workspace lengths. -/
def plan (l a w : Nat) : Regs :=
  { Regs.reset with
    keyPtr := 0x100, ivPtr := 0x110, aadPtr := 0x120, aadLen := BitVec.ofNat 16 a, dinPtr := 0x200,
    dinLen := BitVec.ofNat 16 l, doutPtr := 0x300, tagPtr := 0x400, wsPtr := 0x800, wsLen := BitVec.ofNat 16 w }

/-- key2, iv2 and aad4 in MEM, `data` as the data input. -/
def planMem (data : Bytes) : Memory :=
  writeBytes toy (writeBytes toy (writeBytes toy (writeBytes toy [] 0x100
    (hexBytes 16 0x000102030405060708090a0b0c0d0e0f)) 0x110 (hexBytes 12 0xa0a1a2a3a4a5a6a7a8a9aaab))
    0x120 (hexBytes 4 0x00010203)) 0x200 data

/-- A state of the toy machine before a command. -/
def toyState (l a w : Nat) (data : Bytes) : State := { State.reset with regs := plan l a w, mem := planMem data }

/-- The first `n` bytes of the vectors' plaintext. -/
def plaintext (n : Nat) : Bytes := (hexBytes 20 0x303132333435363738393a3b3c3d3e3f40414243).take n

/-- A next state that passes a test. -/
def reaches (o : Host.Outcome State Fault Refusal) (p : State → Bool) : Bool :=
  match o with
  | .next t => p t
  | .fault _ => false
  | .refused _ => false

/-- The reset state with one host move waiting. -/
def waiting (m : HostMove) : State := { State.reset with moves := [m] }

/-- A state of the machine with given registers and nothing else. -/
def withRegs (r : Regs) : State := { State.reset with regs := r }

/-- A command whose checks all pass is ready. -/
theorem ready_of_checks {c : Config} {i : Instr} {r : Regs} (hp : precheck c i r = none)
    (hr : regionCheck c i r = none) : Ready c i r :=
  ⟨(precheck_eq_none_iff c i r).mp hp, (regionCheck_eq_none_iff c i r).mp hr⟩

/-- A ready command of the machine answers. -/
theorem exec_of_ready {i : Instr} {s : State} (h : Ready Config.machine i s.regs) :
    exec i s = .next (bodyOf Config.machine i s) := by rw [exec_eq_runCommand, runCommand_of_ready h]

theorem ready_plan_enc : Ready Config.machine .gcmEnc (plan 20 4 144) :=
  ready_of_checks (by decide +kernel) (by decide +kernel)

theorem ready_plan_enc_largest : Ready Config.machine .gcmEnc { plan 255 255 144 with aadPtr := 0x600 } :=
  ready_of_checks (by decide +kernel) (by decide +kernel)

theorem ready_plan_encp : Ready Config.machine .gcmEncp (plan 16 4 128) :=
  ready_of_checks (by decide +kernel) (by decide +kernel)

theorem ready_plan_dec : Ready Config.machine .gcmDec (plan 16 4 160) :=
  ready_of_checks (by decide +kernel) (by decide +kernel)

/-! ## Well-formedness -/

theorem test_wellFormed_instr : Instr.gcmEnc.wellFormed = true ∧ Instr.gcmDec.wellFormed = true := by decide
theorem test_illFormed_regWrite : (HostMove.regWrite 0x10 0).wellFormed Config.machine = false := by decide
theorem test_illFormed_regRead : (HostMove.regRead 0x10).wellFormed Config.machine = false := by decide
theorem test_illFormed_memWrite : (HostMove.memWrite (2 ^ 16) 0#8).wellFormed Config.machine = false := by decide
theorem test_illFormed_memRead : (HostMove.memRead (2 ^ 16)).wellFormed Config.machine = false := by decide
theorem test_illFormed_noAddress : ({ toy with AW := 0 } : Config).wellFormed = false := by decide
theorem test_illFormed_smallEnc : ({ toy with wsminEnc := 0x8F } : Config).wellFormed = false := by decide
theorem test_illFormed_smallEncp : ({ toy with wsminEncp := 0x7F } : Config).wellFormed = false := by decide
theorem test_illFormed_smallDec : ({ toy with wsminDec := 0x9F } : Config).wellFormed = false := by decide

/-! ## Decoding: the match and mask of R91, bit by bit -/

theorem test_decode_enc : decode 0b00000001#8 = .ok .gcmEnc := by decide
theorem test_decode_encp : decode 0b00000010#8 = .ok .gcmEncp := by decide
theorem test_decode_dec : decode 0b00000011#8 = .ok .gcmDec := by decide
/-- V-ERR-4: 0x00, 0x04 and 0xFF are illegal. -/
theorem test_decode_illegal :
    decode 0x00#8 = .error (.illegalOpcode 0x00#8) ∧ decode 0x04#8 = .error (.illegalOpcode 0x04#8)
      ∧ decode 0xFF#8 = .error (.illegalOpcode 0xFF#8) := by decide
theorem test_tableWord : decodeTableWord 8 0x02 = some .gcmEncp ∧ decodeTableWord 8 0x05 = none := by decide
/-- V-ERR-5: a CMD write of 0x101 is GCM.ENC. -/
theorem test_opcode_truncates : decode (opcodeOf 0x101) = .ok .gcmEnc := by decide
theorem test_registerNumbers :
    (List.range 17).map regOfNumber
      = [some .cmd, some .status, some .keyPtr, some .ivPtr, some .aadPtr, some .aadLen, some .dinPtr, some .dinLen,
        some .doutPtr, some .tagPtr, some .wsPtr, some .wsLen, some .wsminEnc, some .wsminEncp, some .wsminDec,
        some .reserved, none] := by decide

/-! ## The step after reset -/

/-- R42: a command straight after reset reports InsufficientWorkspace. -/
theorem test_step_fetches :
    reaches (step (State.reset.withFetchWord 8 0x03)) (fun t => t.regs.status == 0x51#8 && t.moves == []) = true := by
  decide
/-- V-ERR-4: an illegal opcode. -/
theorem test_step_illegal :
    reaches (step (State.reset.withFetchWord 8 0x04)) (fun t => t.regs.status == 0x71#8) = true := by decide
/-- V-ERR-17: `WR DIN_LEN, 65552` keeps 16. -/
theorem test_length_truncates :
    reaches (step (waiting (.regWrite 0x7 65552))) (fun t => t.regs.dinLen == 16#16) = true := by decide
/-- V-ERR-18 and R36: reads of STATUS and of WSMIN_ENCP after reset. -/
theorem test_reads :
    reaches (step (waiting (.regRead 0x1))) (fun t => t.replies == [.reg 0x1 0]) = true
      ∧ reaches (step (waiting (.regRead 0xD))) (fun t => t.replies == [.reg 0xD 128]) = true := by decide

/-! ## Micro-operations -/

/-- V-PRIM-1, V-PRIM-4, V-PRIM-7, V-PRIM-8. -/
theorem test_primitives :
    xor128 0x0123456789abcdef0123456789abcdef 0xff00ff00ff00ff00ff00ff00ff00ff00 = 0xfe23ba6776ab32effe23ba6776ab32ef
      ∧ shr1 0x0123456789abcdef0123456789abcdef = (0x0091a2b3c4d5e6f78091a2b3c4d5e6f7, true)
      ∧ incr32 0x000102030405060708090a0b00ffffff = 0x000102030405060708090a0b01000000
      ∧ incr32 0xffffffffffffffffffffffffffffffff = 0xffffffffffffffffffffffff00000000 := by decide +kernel

/-- V-PRIM-10 at byte 0 and V-PRIM-11. -/
theorem test_comparator :
    tagsEqual 0x90064af7bb2a3cb899d6dbb27f11f930 0x91064af7bb2a3cb899d6dbb27f11f930 = false
      ∧ tagsEqual 0x90064af7bb2a3cb899d6dbb27f11f930 0x90064af7bb2a3cb899d6dbb27f11f9b0 = false := by decide +kernel

/-- V-GF-5 and V-GF-9. -/
theorem test_multiplier :
    gfmul 0x00000000000000000000000000000001 0x00000000000000000000000000000001 = 0xe6080000000000000000000000000003
      ∧ gfmul 0x0388dace60b6a392f328c2b971b2fe78 0x66e94bd4ef8a2c3b884cfa59ca342b2e
        = 0x5e2ec746917062882c85b0685353deb7 := by decide +kernel

/-- V-GH-2 and V-GH-5. -/
theorem test_ghash :
    ghash (hexBytes 4 0x00010203) 0x66e94bd4ef8a2c3b884cfa59ca342b2e = 0x298a2fe2acf1345011fb1621f6f0ee94
      ∧ ghash (hexBytes 20 0x000102030405060708090a0b0c0d0e0f10111213) 0x66e94bd4ef8a2c3b884cfa59ca342b2e
        = 0xc2a94f2b28d615dae1727a4e03f0539c := by decide +kernel

/-- V-CTR-2 and V-CTR-6. -/
theorem test_ctr :
    ctr toy.E 0x000102030405060708090a0b0c0d0e0f 0xa0a1a2a3a4a5a6a7a8a9aaab00000002 (plaintext 20)
        = hexBytes 20 0x909192939495969798999a9b30303032e0e1e2e3
      ∧ ctr toy.E 0x000102030405060708090a0b0c0d0e0f 0xa0a1a2a3a4a5a6a7a8a9aaabffffffff (List.replicate 32 0#8)
        = hexBytes 32 0xa0a0a0a0a0a0a0a0a0a0a0a0f3f2f1f0a0a0a0a0a0a0a0a0a0a0a0a00c0d0e0f := by decide +kernel

/-- V-TAG-2, V-TAG-5 and V-TAG-6. -/
theorem test_formats :
    makeJ0 (hexBytes 12 0xa0a1a2a3a4a5a6a7a8a9aaab) = 0xa0a1a2a3a4a5a6a7a8a9aaab00000001
      ∧ lenBlock 20 5 = 0x00000000000000a00000000000000028 ∧ lenBlock 32 0 = 0x00000000000001000000000000000000
      ∧ lenBlock 255 255 = 0x00000000000007f800000000000007f8 := by decide +kernel

/-- V-TAG-9. -/
theorem test_gentag :
    gentag toy.E 0x000102030405060708090a0b0c0d0e0f 0x000102030405060708090a0b0c0d0e0f (hexBytes 4 0x00010203)
        (hexBytes 20 0x909192939495969798999a9b30303032e0e1e2e3) 0xa0a1a2a3a4a5a6a7a8a9aaab00000001
      = 0xb5bf13ebfa067dbd1c0b2b7d0cd1b1ad := by decide +kernel

/-! ## Commands -/

/-- V-CMD-1: GCM.ENC of 20 bytes, the byte after the ciphertext and the byte after the workspace unchanged. -/
theorem test_gcmEnc :
    reaches (gcmEnc toy (toyState 20 4 144 (plaintext 20)))
      (fun t => t.regs.status == 0x03#8
        && readBytes toy t.mem 0x300 21 == hexBytes 21 0x909192939495969798999a9b30303032e0e1e2e3ee
        && readBytes toy t.mem 0x400 16 == hexBytes 16 0xb5bf13ebfa067dbd1c0b2b7d0cd1b1ad
        && readByte toy t.mem 0x800 == 0x00#8 && readBytes toy t.mem 0x88F 2 == [0x00#8, 0xEE#8]) = true := by decide +kernel

/-- V-REG-2: the reserved extent of the ciphertext buffer meets the tag region. -/
theorem test_gcmEnc_reserved :
    gcmEnc toy (withRegs { plan 20 4 144 with doutPtr := 0x3F0, tagPtr := 0x404 }) = .refused .overlappingRegions := by
  rfl

/-- V-CMD-2: GCM.ENCP of 16 bytes. -/
theorem test_gcmEncp :
    reaches (gcmEncp toy (toyState 16 4 128 (plaintext 16)))
      (fun t => t.regs.status == 0x03#8
        && readBytes toy t.mem 0x300 17 == hexBytes 17 0x909192939495969798999a9b30303032ee
        && readBytes toy t.mem 0x400 16 == hexBytes 16 0x90064af7bb2a3cb899d6dbb27f11f930) = true := by decide +kernel

/-- V-CMD-4: the GMAC use. -/
theorem test_gcmEncp_gmac :
    reaches (gcmEncp toy (toyState 0 4 128 []))
      (fun t => t.regs.status == 0x03#8 && readByte toy t.mem 0x300 == 0xEE#8
        && readBytes toy t.mem 0x400 16 == hexBytes 16 0x369639bc74e00ce9873cf19713a96733) = true := by decide +kernel

/-- The state of V-CMD-10 and V-CMD-11: a ciphertext and V-CMD-2's tag. -/
def toyCipher (ct : Nat) : State :=
  { toyState 16 4 160 (hexBytes 16 ct) with
    mem := writeBytes toy (planMem (hexBytes 16 ct)) 0x400 (hexBytes 16 0x90064af7bb2a3cb899d6dbb27f11f930) }

/-- V-CMD-10: the right tag. -/
theorem test_gcmDec :
    reaches (gcmDec toy (toyCipher 0x909192939495969798999a9b30303032))
      (fun t => t.regs.status == 0x03#8 && readBytes toy t.mem 0x300 16 == plaintext 16) = true := by decide +kernel

/-- V-CMD-11: one flipped bit. The plaintext is written and stays, the workspace ends in a zero. -/
theorem test_gcmDec_flipped :
    reaches (gcmDec toy (toyCipher 0x919192939495969798999a9b30303032))
      (fun t => t.regs.status == 0x61#8
        && readBytes toy t.mem 0x300 16 == hexBytes 16 0x313132333435363738393a3b3c3d3e3f
        && readBytes toy t.mem 0x89F 2 == [0x00#8, 0xEE#8]) = true := by decide +kernel

/-! ## Witnesses: every statement with hypotheses, met -/

theorem witness_OpcodeMapIsTheTable : ∃ b : Byte, b ≠ 0x01#8 ∧ b ≠ 0x02#8 ∧ b ≠ 0x03#8 := ⟨0x04#8, by decide⟩

theorem witness_DecodeAndEncodeAgree : ∃ (i : Instr) (b : Byte), i.wellFormed = true ∧ decode b = .ok i :=
  ⟨.gcmDec, 0x03#8, by decide⟩

/-- The opcode in the low 8 bits, and a bit above them. -/
theorem witness_CommandWriteRunsTheDecodedCommand :
    ∃ (s : State) (v : Nat) (ms : List HostMove) (i : Instr),
      s.moves = .regWrite 0 v :: ms ∧ decode (BitVec.ofNat 8 v) = .ok i :=
  ⟨waiting (.regWrite 0 0x101), 0x101, [], .gcmEnc, rfl, by decide⟩

theorem witness_IllegalCommandChangesOnlyStatus :
    ∃ (s : State) (v : Nat) (ms : List HostMove), s.moves = .regWrite 0 v :: ms
      ∧ v % 2 ^ 8 ≠ 0x01 ∧ v % 2 ^ 8 ≠ 0x02 ∧ v % 2 ^ 8 ≠ 0x03 :=
  ⟨waiting (.regWrite 0 0x100), 0x100, [], rfl, by decide⟩

/-- One write for each clause, at the ends of the numbers: a pointer, a length, an ignored register. -/
theorem witness_RegisterWriteTruncatesOrIsIgnored :
    ∀ n ∈ [0x1, 0x2, 0x5, 0xA, 0xB, 0xC, 0xF], ∃ (s : State) (v : Nat) (ms : List HostMove),
      s.moves = .regWrite n v :: ms ∧ 1 ≤ n ∧ n ≤ 0xF :=
  fun n hn => ⟨waiting (.regWrite n 0x10001), 0x10001, [], rfl, by
    have hall : ∀ k ∈ [0x1, 0x2, 0x5, 0xA, 0xB, 0xC, 0xF], 1 ≤ k ∧ k ≤ 0xF := by decide
    exact hall n hn⟩

theorem witness_RegisterReadReturnsTheValue :
    ∀ n ∈ [0x0, 0xF], ∃ (s : State) (ms : List HostMove), s.moves = .regRead n :: ms ∧ n ≤ 0xF :=
  fun n hn => ⟨waiting (.regRead n), [], rfl, by
    have hall : ∀ k ∈ [0x0, 0xF], k ≤ 0xF := by decide
    exact hall n hn⟩

theorem witness_ReservedAndMissingRegisters :
    (∃ (s : State) (ms : List HostMove), s.moves = .regWrite 0xF 7 :: ms)
      ∧ (∃ (s : State) (ms : List HostMove), s.moves = .regRead 0xF :: ms)
      ∧ (∃ (s : State) (ms : List HostMove), 0xF < 0x10 ∧ s.moves = .regWrite 0x10 0 :: ms)
      ∧ ∃ (s : State) (ms : List HostMove), 0xF < 0x10 ∧ s.moves = .regRead 0x10 :: ms :=
  ⟨⟨waiting _, [], rfl⟩, ⟨waiting _, [], rfl⟩, ⟨waiting _, [], by decide, rfl⟩, ⟨waiting _, [], by decide, rfl⟩⟩

/-- The last address of MEM and the first beyond it. -/
theorem witness_HostReachesEveryByteOfMemory :
    (∃ (s : State) (ms : List HostMove), s.moves = .memWrite 0xFFFF 1#8 :: ms ∧ 0xFFFF < 2 ^ Config.machine.AW)
      ∧ (∃ (s : State) (ms : List HostMove), s.moves = .memRead 0xFFFF :: ms ∧ 0xFFFF < 2 ^ Config.machine.AW)
      ∧ (∃ (s : State) (ms : List HostMove), s.moves = .memWrite 0x10000 1#8 :: ms ∧ 2 ^ Config.machine.AW ≤ 0x10000)
      ∧ ∃ (s : State) (ms : List HostMove), s.moves = .memRead 0x10000 :: ms ∧ 2 ^ Config.machine.AW ≤ 0x10000 :=
  ⟨⟨waiting _, [], rfl, by decide⟩, ⟨waiting _, [], rfl, by decide⟩, ⟨waiting _, [], rfl, by decide⟩,
    ⟨waiting _, [], rfl, by decide⟩⟩

theorem witness_ResetEventClearsRegistersAndKeepsMemory :
    ∃ (s : State) (ms : List HostMove), s.moves = .reset :: ms ∧ s.regs ≠ State.reset.regs :=
  ⟨{ waiting .reset with regs := plan 16 4 128 }, [], rfl, by decide⟩

theorem witness_EngineWaitsForTheHost : ∃ s : State, s.moves = [] := ⟨State.reset, rfl⟩

/-- A call of the GMAC program P1 whose command answers, every argument but three below its bound by one or more. -/
theorem witness_CallExpansionRunsItsCommand :
    ∃ (i : Instr) (a : CallArgs) (s t : State) (ms : List HostMove), s.moves = callMoves i a ++ ms
      ∧ a.key < 2 ^ Config.machine.AW ∧ a.iv < 2 ^ Config.machine.AW ∧ a.aad < 2 ^ Config.machine.AW
      ∧ a.input < 2 ^ Config.machine.AW ∧ a.output < 2 ^ Config.machine.AW ∧ a.tag < 2 ^ Config.machine.AW
      ∧ a.ws < 2 ^ Config.machine.AW ∧ a.aadLen < 2 ^ 16 ∧ a.inputLen < 2 ^ 16 ∧ a.wsLen < 2 ^ 16
      ∧ exec i { s with
          moves := .regRead 0x1 :: ms
          regs := { status := s.regs.status, keyPtr := a.key, ivPtr := a.iv, aadPtr := a.aad,
                    aadLen := BitVec.ofNat 16 a.aadLen, dinPtr := a.input, dinLen := BitVec.ofNat 16 a.inputLen,
                    doutPtr := a.output, tagPtr := a.tag, wsPtr := a.ws, wsLen := BitVec.ofNat 16 a.wsLen } }
          = .next t :=
  ⟨.gcmEncp, ⟨0x100, 0x110, 0x120, 4, 0xFFFF, 0, 0x300, 0x400, 0x800, 128⟩,
    { State.reset with moves := callMoves .gcmEncp ⟨0x100, 0x110, 0x120, 4, 0xFFFF, 0, 0x300, 0x400, 0x800, 128⟩ },
    _, [], by simp, by decide, by decide, by decide, by decide, by decide, by decide, by decide, by decide, by decide,
    by decide, exec_of_ready (ready_of_checks (by decide +kernel) (by decide +kernel))⟩

theorem witness_MemoryWriteThenRead : ∃ (p : Nat) (bs : Bytes) (i a : Nat), i < bs.length ∧ ¬ inRegion p bs.length a :=
  ⟨5, [1#8, 2#8], 1, 7, by decide, by unfold inRegion; decide⟩

theorem witness_EqualMemoriesAreEqualData :
    ∃ (c : Config) (m m' : Memory), memoryWf c m = true ∧ memoryWf c m' = true
      ∧ ∀ a, readByte c m a = readByte c m' a :=
  ⟨toy, [(0x10, 1#8)], [(0x10, 1#8)], by decide, by decide, fun _ => rfl⟩

/-- V-REG-4 and V-REG-1: a workspace that passes the top of MEM, and an in-place command. -/
theorem witness_InvalidOrOverlappingRegionsAreRefused :
    (∃ (i : Instr) (s : State), PreconditionsMet Config.machine i s.regs ∧ ¬ RegionsValid Config.machine s.regs)
      ∧ ∃ (i : Instr) (s : State), PreconditionsMet Config.machine i s.regs ∧ RegionsValid Config.machine s.regs
          ∧ ¬ RegionsApart i s.regs := by
  refine ⟨⟨.gcmDec, withRegs { plan 16 4 160 with wsPtr := 0xFF80 }, ?_, ?_⟩,
    ⟨.gcmEncp, withRegs { plan 16 4 160 with doutPtr := 0x200 }, ?_, ?_, ?_⟩⟩
  · exact (precheck_eq_none_iff _ _ _).mp (by decide +kernel)
  · rw [← regionsValid_iff _ .gcmDec]
    decide +kernel
  · exact (precheck_eq_none_iff _ _ _).mp (by decide +kernel)
  · rw [← regionsValid_iff _ .gcmDec]
    decide +kernel
  · rw [← regionsApart_iff]
    decide +kernel

/-- One state for each of the five checks, the earlier ones passing: 143, NULL, both lengths 0, 17, 256. -/
theorem witness_FirstFailingPreconditionIsReported :
    ((Instr.gcmDec, 0xE) ∈ [(Instr.gcmEnc, 0xC), (.gcmEncp, 0xD), (.gcmDec, 0xE)])
      ∧ (plan 16 4 143).wsLen.toNat < wsMin Config.machine .gcmEnc
      ∧ (wsMin Config.machine .gcmEnc ≤ (plan 16 4 144).wsLen.toNat ∧ Instr.gcmEnc ≠ .gcmDec
        ∧ { plan 16 4 144 with doutPtr := 0 }.doutPtr = 0)
      ∧ (wsMin Config.machine .gcmDec ≤ (plan 0 0 160).wsLen.toNat ∧ (plan 0 0 160).dinLen.toNat = 0
        ∧ (plan 0 0 160).aadLen.toNat = 0)
      ∧ (wsMin Config.machine .gcmDec ≤ (plan 17 256 160).wsLen.toNat ∧ Instr.gcmDec ≠ .gcmEnc
        ∧ (plan 17 256 160).dinLen.toNat % 16 ≠ 0)
      ∧ (wsMin Config.machine .gcmEncp ≤ (plan 256 4 128).wsLen.toNat ∧ (plan 256 4 128).doutPtr ≠ 0
        ∧ (plan 256 4 128).dinLen.toNat % 16 = 0 ∧ 255 < (plan 256 4 128).dinLen.toNat) := by decide

theorem witness_EachCommandReportsOnlyItsOwnErrors :
    ∀ i : Instr, ∃ s t : State, exec i s = .next t := by
  intro i
  cases i with
  | gcmEnc => exact ⟨withRegs (plan 20 4 144), _, exec_of_ready ready_plan_enc⟩
  | gcmEncp => exact ⟨withRegs (plan 16 4 128), _, exec_of_ready ready_plan_encp⟩
  | gcmDec => exact ⟨withRegs (plan 16 4 160), _, exec_of_ready ready_plan_dec⟩

/-- V-ERR-1 to V-ERR-3. -/
theorem witness_WorkspaceOneByteShortAlwaysFails :
    ∀ p ∈ [(Instr.gcmEnc, 0xC, 143), (.gcmEncp, 0xD, 127), (.gcmDec, 0xE, 159)], ∃ s : State,
      s.regs.wsLen.toNat = p.2.2 ∧ (p.1, p.2.1) ∈ [(Instr.gcmEnc, 0xC), (.gcmEncp, 0xD), (.gcmDec, 0xE)]
        ∧ valueOfReg Config.machine s p.2.1 = some (s.regs.wsLen.toNat + 1) := by
  intro p hp
  have hall : ∀ q ∈ [(Instr.gcmEnc, 0xC, 143), (.gcmEncp, 0xD, 127), (.gcmDec, 0xE, 159)],
      (plan 16 4 q.2.2).wsLen.toNat = q.2.2 ∧ (q.1, q.2.1) ∈ [(Instr.gcmEnc, 0xC), (.gcmEncp, 0xD), (.gcmDec, 0xE)]
        ∧ valueOfReg Config.machine (withRegs (plan 16 4 q.2.2)) q.2.1
          = some ((plan 16 4 q.2.2).wsLen.toNat + 1) := by decide
  exact ⟨withRegs (plan 16 4 p.2.2), hall p hp⟩

theorem witness_StatusChangesOnlyByCommandOrReset :
    (∃ s t : State, step s = .next t ∧ t.regs.status ≠ s.regs.status)
      ∧ ∃ s t : State, (∃ ms, s.moves = .reset :: ms) ∧ step s = .next t ∧ t.regs.status ≠ s.regs.status :=
  ⟨⟨waiting (.regWrite 0 0), _, rfl, by decide⟩,
    ⟨{ waiting .reset with regs := { Regs.reset with status := 0x03#8 } }, _, ⟨[], rfl⟩, rfl, by decide⟩⟩

theorem witness_DoneIsClearedOnlyByReset :
    ∃ s t : State, step s = .next t ∧ doneOf s.regs.status = true ∧ doneOf t.regs.status = false :=
  ⟨{ waiting .reset with regs := { Regs.reset with status := 0x03#8 } }, _, rfl, by decide, by decide⟩

theorem witness_GcmEncCompletes : ∃ s s' : State, Ready Config.machine .gcmEnc s.regs
    ∧ Ready Config.machine .gcmEnc s'.regs ∧ s'.regs.dinLen.toNat = 255 ∧ s'.regs.aadLen.toNat = 255 :=
  ⟨withRegs (plan 20 4 144), withRegs { plan 255 255 144 with aadPtr := 0x600 }, ready_plan_enc,
    ready_plan_enc_largest, by decide, by decide⟩

theorem witness_GcmEncpCompletes : ∃ s : State, Ready Config.machine .gcmEncp s.regs :=
  ⟨withRegs (plan 16 4 128), ready_plan_encp⟩

/-- A state of the machine with `x` in the tag region and nothing else in MEM. -/
def withTag (x : Block) : State :=
  { State.reset with regs := plan 16 4 160, mem := writeBytes Config.machine [] 0x400 (blockBytes x) }

/-- What the tag region holds does not reach the tag that GCM.DEC computes. -/
theorem withTag_spec (x : Block) :
    tagIn Config.machine (withTag x) = blockBytes x
      ∧ tagFor Config.machine (withTag x) (dataIn Config.machine (withTag x))
        = tagFor Config.machine (withRegs (plan 16 4 160)) (dataIn Config.machine (withRegs (plan 16 4 160))) := by
  have hkeep : ∀ p n, p + n ≤ 0x400 →
      readBytes Config.machine (writeBytes Config.machine [] 0x400 (blockBytes x)) p n
        = readBytes Config.machine [] p n := fun p n h =>
    readBytes_writeBytes_of_disjoint _ _ fun a ha => by
      simp only [inRegion] at ha
      omega
  refine ⟨readBytes_writeBytes_self _ _ _ _ (length_blockBytes x), ?_⟩
  simp only [tagFor, keyIn, aadIn, dataIn, counterIn, withTag, withRegs, State.reset]
  rw [hkeep _ _ (by decide), hkeep _ _ (by decide), hkeep _ _ (by decide), hkeep _ _ (by decide)]

/-- Both answers of the comparator are met, whatever the block cipher. -/
theorem witness_GcmDecCompletes :
    (∃ s : State, Ready Config.machine .gcmDec s.regs
      ∧ tagIn Config.machine s = blockBytes (tagFor Config.machine s (dataIn Config.machine s)))
      ∧ ∃ s : State, Ready Config.machine .gcmDec s.regs
        ∧ tagIn Config.machine s ≠ blockBytes (tagFor Config.machine s (dataIn Config.machine s)) := by
  have hs := fun x => withTag_spec x
  generalize tagFor Config.machine (withRegs (plan 16 4 160)) (dataIn Config.machine (withRegs (plan 16 4 160))) = g
    at hs
  refine ⟨⟨withTag g, ready_plan_dec, by rw [(hs g).1, (hs g).2]⟩,
    ⟨withTag (g ^^^ 1#128), ready_plan_dec, fun he => ?_⟩⟩
  rw [(hs _).1, (hs _).2] at he
  have he := congrArg blockOfBytes he
  rw [blockOfBytes_blockBytes, blockOfBytes_blockBytes] at he
  have : g ^^^ (g ^^^ 1#128) = 0#128 := by rw [he, BitVec.xor_self]
  rw [← BitVec.xor_assoc, BitVec.xor_self, BitVec.zero_xor] at this
  exact absurd this (by decide)

theorem witness_GmacWritesATagAndNoCiphertext :
    ∀ i : Instr, i ≠ .gcmDec → ∃ s : State, Ready Config.machine i s.regs ∧ s.regs.dinLen.toNat = 0 := by
  intro i hi
  cases i with
  | gcmEnc => exact ⟨withRegs (plan 0 4 144), ready_of_checks (by decide +kernel) (by decide +kernel), by decide⟩
  | gcmEncp => exact ⟨withRegs (plan 0 4 128), ready_of_checks (by decide +kernel) (by decide +kernel), by decide⟩
  | gcmDec => exact absurd rfl hi

/-- A run of the body, and a run that ends in an error. -/
theorem witness_EncryptFrame :
    (∃ (i : Instr) (s t : State), i ≠ .gcmDec ∧ exec i s = .next t)
      ∧ ∃ (i : Instr) (s t : State), i ≠ .gcmDec ∧ exec i s = .next t ∧ t.regs.status ≠ 0x03#8 :=
  ⟨⟨.gcmEnc, withRegs (plan 20 4 144), _, by decide, exec_of_ready ready_plan_enc⟩,
    ⟨.gcmEncp, State.reset, _, by decide, rfl, by decide⟩⟩

theorem witness_DecryptFrame :
    (∃ s t : State, exec .gcmDec s = .next t)
      ∧ ∃ s t : State, exec .gcmDec s = .next t ∧ t.regs.status ≠ 0x03#8 ∧ t.regs.status ≠ 0x61#8 :=
  ⟨⟨withRegs (plan 16 4 160), _, exec_of_ready ready_plan_dec⟩, ⟨State.reset, _, rfl, by decide, by decide⟩⟩

theorem witness_ReservedCiphertextBytesAreNotWritten :
    ∃ s : State, Ready Config.machine .gcmEnc s.regs
      ∧ (s.regs.dinLen.toNat ≤ 20 ∧ 20 < roundUp16 s.regs.dinLen.toNat) ∧ 31 < roundUp16 s.regs.dinLen.toNat :=
  ⟨withRegs (plan 20 4 144), ready_plan_enc, by decide, by decide⟩

theorem witness_NoResidueInTheWorkspace :
    ∃ (i : Instr) (s t : State), Ready Config.machine i s.regs ∧ exec i s = .next t :=
  ⟨.gcmDec, withRegs (plan 16 4 160), _, ready_plan_dec, exec_of_ready ready_plan_dec⟩

theorem witness_EncryptCommandsAgreeOnAlignedInput :
    ∃ s : State, Ready Config.machine .gcmEnc s.regs ∧ s.regs.dinLen.toNat % 16 = 0 :=
  ⟨withRegs (plan 16 4 144), ready_of_checks (by decide +kernel) (by decide +kernel), by decide⟩

/-- Program P3 before its first command, and after it or GCM.ENC in its place. -/
def toyBefore : State := toyState 16 4 160 (plaintext 16)
def toyAfter (i : Instr) : State := bodyOf toy i toyBefore

theorem ready_toyBefore (i : Instr) : Ready toy i toyBefore.regs := by
  cases i <;> exact ready_of_checks (r := plan 16 4 160) (by decide +kernel) (by decide +kernel)

theorem ready_toyCipher (ct : Nat) : Ready toy .gcmDec (toyCipher ct).regs :=
  ready_of_checks (c := toy) (i := .gcmDec) (r := plan 16 4 160) (by decide +kernel) (by decide +kernel)

/-- The ciphertext and the tag of V-CMD-2, from either encrypt command. -/
theorem toyAfter_spec {i : Instr} (hi : i ≠ .gcmDec) :
    outputIn toy (toyAfter i) = hexBytes 16 0x909192939495969798999a9b30303032
      ∧ tagIn toy (toyAfter i) = hexBytes 16 0x90064af7bb2a3cb899d6dbb27f11f930 := by
  obtain ⟨hd, ht, -⟩ := bodyOf_encrypt_mem (c := toy) (by decide) hi (ready_toyBefore i)
  have hc : cipherOf toy i toyBefore = hexBytes 16 0x909192939495969798999a9b30303032 := by
    cases i <;> decide +kernel
  rw [hc] at hd ht
  exact ⟨hd, ht.trans (by decide +kernel)⟩

theorem witness_DecryptionUndoesEncryption :
    ∀ i : Instr, i ≠ .gcmDec → ∃ (c : Config) (s t u : State), c.wellFormed = true ∧ Ready c i s.regs
      ∧ s.regs.dinLen.toNat % 16 = 0 ∧ runCommand c i s = .next t ∧ Ready c .gcmDec u.regs ∧ keyIn c u = keyIn c s
      ∧ readBytes c u.mem u.regs.ivPtr 12 = readBytes c s.mem s.regs.ivPtr 12 ∧ aadIn c u = aadIn c s
      ∧ dataIn c u = outputIn c t ∧ tagIn c u = tagIn c t := by
  intro i hi
  refine ⟨toy, toyBefore, toyAfter i, toyCipher 0x909192939495969798999a9b30303032, by decide,
    ready_toyBefore i, by decide, runCommand_of_ready (ready_toyBefore i), ready_toyCipher _, by decide +kernel,
    by decide +kernel, by decide +kernel, ?_, ?_⟩
  · rw [(toyAfter_spec hi).1]
    decide +kernel
  · rw [(toyAfter_spec hi).2]
    decide +kernel

/-- A state that differs in STATUS and in a byte of the data output. -/
theorem witness_ResultsDependOnlyOnTheInputs :
    ∀ (i : Instr) (s : State), s = withRegs (plan 16 4 160) → ∃ s' t : State,
      s'.regs.status ≠ s.regs.status ∧ readByte Config.machine s'.mem 0x300 ≠ readByte Config.machine s.mem 0x300
      ∧ SameDescriptors s.regs s'.regs ∧ keyIn Config.machine s' = keyIn Config.machine s
      ∧ readBytes Config.machine s'.mem s.regs.ivPtr 12 = readBytes Config.machine s.mem s.regs.ivPtr 12
      ∧ aadIn Config.machine s' = aadIn Config.machine s ∧ dataIn Config.machine s' = dataIn Config.machine s
      ∧ (i = .gcmDec → tagIn Config.machine s' = tagIn Config.machine s) ∧ exec i s = .next t
      ∧ Ready Config.machine i s.regs := by
  intro i s hs
  subst hs
  have hready : Ready Config.machine i (plan 16 4 160) := by
    cases i <;> exact ready_of_checks (by decide +kernel) (by decide +kernel)
  have hkeep : ∀ p n, ¬ inRegion p n 0x300 →
      readBytes Config.machine (writeByte Config.machine [] 0x300 (Config.machine.launchByte 0x300 ^^^ 1#8)) p n
        = readBytes Config.machine [] p n := fun p n h =>
    readBytes_congr fun a ha => readByte_writeByte_of_ne _ _ _ fun he => h (he ▸ ha)
  refine ⟨{ withRegs (plan 16 4 160) with
      regs := { plan 16 4 160 with status := 0x61#8 }
      mem := writeByte Config.machine [] 0x300 (Config.machine.launchByte 0x300 ^^^ 1#8) }, _, by decide, ?_, rfl, ?_,
    hkeep _ _ ?_, hkeep _ _ ?_, hkeep _ _ ?_, fun _ => hkeep _ _ ?_, exec_of_ready hready, hready⟩
  · rw [readByte_writeByte_self]
    show Config.machine.launchByte 0x300 ^^^ 1#8 ≠ Config.machine.launchByte 0x300
    generalize Config.machine.launchByte 0x300 = b
    revert b
    decide
  · exact congrArg blockOfBytes (hkeep 0x100 16 (by unfold inRegion; decide))
  all_goals
    unfold inRegion
    decide

theorem witness_EveryChangedTagIsDetected :
    ∀ i : Instr, i ≠ .gcmDec → ∃ (c : Config) (s t u : State), c.wellFormed = true ∧ Ready c i s.regs
      ∧ s.regs.dinLen.toNat % 16 = 0 ∧ runCommand c i s = .next t ∧ Ready c .gcmDec u.regs ∧ keyIn c u = keyIn c s
      ∧ readBytes c u.mem u.regs.ivPtr 12 = readBytes c s.mem s.regs.ivPtr 12 ∧ aadIn c u = aadIn c s
      ∧ dataIn c u = outputIn c t ∧ tagIn c u ≠ tagIn c t := by
  intro i hi
  refine ⟨toy, toyBefore, toyAfter i,
    { toyCipher 0x909192939495969798999a9b30303032 with
      mem := writeByte toy (toyCipher 0x909192939495969798999a9b30303032).mem 0x40F 0xB0#8 },
    by decide, ready_toyBefore i, by decide, runCommand_of_ready (ready_toyBefore i),
    ready_toyCipher 0x909192939495969798999a9b30303032, by decide +kernel, by decide +kernel, by decide +kernel, ?_, ?_⟩
  · rw [(toyAfter_spec hi).1]
    decide +kernel
  · rw [(toyAfter_spec hi).2]
    decide +kernel

theorem witness_OneChangedByteChangesTheTag :
    ∃ (h : Block) (aad ct : Bytes) (b : Byte), h ≠ 0#128 ∧ (0 < ct.length ∧ b ≠ ct.getD 0 0#8)
      ∧ 0 < aad.length ∧ b ≠ aad.getD 0 0#8 :=
  ⟨1#128, [1#8], [2#8], 3#8, by decide⟩

/-- Steps 3 and 5 of program P3: a changed ciphertext byte, and a changed AAD byte. -/
theorem witness_OneChangedByteIsDetected :
    ∀ (i : Instr) (k : Bool), i ≠ .gcmDec → ∃ (c : Config) (s t u : State) (j : Nat) (b : Byte),
      c.wellFormed = true ∧ Ready c i s.regs ∧ s.regs.dinLen.toNat % 16 = 0 ∧ runCommand c i s = .next t
      ∧ Ready c .gcmDec u.regs ∧ keyIn c u = keyIn c s
      ∧ readBytes c u.mem u.regs.ivPtr 12 = readBytes c s.mem s.regs.ivPtr 12 ∧ tagIn c u = tagIn c t
      ∧ c.E 0#128 (keyIn c s) ≠ 0#128
      ∧ ((k = true ∧ j < (outputIn c t).length ∧ b ≠ (outputIn c t).getD j 0#8
            ∧ dataIn c u = (outputIn c t).set j b ∧ aadIn c u = aadIn c s)
          ∨ (k = false ∧ j < (aadIn c s).length ∧ b ≠ (aadIn c s).getD j 0#8 ∧ aadIn c u = (aadIn c s).set j b
            ∧ dataIn c u = outputIn c t)) := by
  intro i k hi
  cases k with
  | true =>
    refine ⟨toy, toyBefore, toyAfter i, toyCipher 0x919192939495969798999a9b30303032, 0, 0x91#8, by decide,
      ready_toyBefore i, by decide, runCommand_of_ready (ready_toyBefore i), ready_toyCipher _, by decide +kernel,
      by decide +kernel, ?_, by decide +kernel, .inl ?_⟩
    · rw [(toyAfter_spec hi).2]
      decide +kernel
    · rw [(toyAfter_spec hi).1]
      decide +kernel
  | false =>
    refine ⟨toy, toyBefore, toyAfter i,
      { toyCipher 0x909192939495969798999a9b30303032 with
        mem := writeByte toy (toyCipher 0x909192939495969798999a9b30303032).mem 0x123 0x02#8 }, 3, 0x02#8, by decide,
      ready_toyBefore i, by decide, runCommand_of_ready (ready_toyBefore i),
      ready_toyCipher 0x909192939495969798999a9b30303032, by decide +kernel, by decide +kernel, ?_, by decide +kernel,
      .inr ?_⟩
    · rw [(toyAfter_spec hi).2]
      decide +kernel
    · rw [(toyAfter_spec hi).1]
      decide +kernel

theorem witness_EveryStepKeepsTheInvariant :
    ∃ s t : State, State.Inv Config.machine s ∧ step s = .next t :=
  ⟨waiting (.regWrite 0x2 0x10001), _, ⟨by decide, rfl⟩, rfl⟩

theorem witness_OnlyTheHostWritesDescriptors :
    (∃ s t : State, step s = .next t ∧ ¬ SameDescriptors s.regs t.regs)
      ∧ ∃ s t : State, step s = .next t ∧ t.mem ≠ s.mem :=
  ⟨⟨waiting (.regWrite 0xB 1), _, rfl, by unfold SameDescriptors; decide⟩,
    ⟨{ waiting (.memWrite 5 (Config.machine.launchByte 5 ^^^ 1#8)) with mem := [] }, _, rfl, fun h => by
      have h := congrArg (fun m => readByte Config.machine m 5) h
      revert h
      show readByte Config.machine (writeByte Config.machine [] 5 (Config.machine.launchByte 5 ^^^ 1#8)) 5
        = Config.machine.launchByte 5 → False
      rw [readByte_writeByte_self]
      generalize Config.machine.launchByte 5 = b
      revert b
      decide⟩⟩

theorem witness_StopsOnlyOnMissingTargetsAndRegions :
    (∃ (s : State) (f : Fault), step s = .fault f) ∧ (∃ (s : State), step s = .refused (.noSuchRegister 0x10))
      ∧ (∃ s : State, step s = .refused .invalidRegion) ∧ ∃ s : State, step s = .refused .overlappingRegions :=
  ⟨⟨waiting (.memRead 0x10000), _, rfl⟩, ⟨waiting (.regRead 0x10), rfl⟩,
    ⟨{ waiting (.regWrite 0 3) with regs := { plan 16 4 160 with keyPtr := 0 } }, rfl⟩,
    ⟨{ waiting (.regWrite 0 2) with regs := { plan 16 4 160 with doutPtr := 0x200 } }, rfl⟩⟩

/-- Every kind of move but a CMD write, at the last register and the last address. -/
theorem witness_HostAccessesNeverStop :
    ∃ s : State, s.moves = [.regWrite 0xF 1, .regRead 0xF, .memWrite 0xFFFF 1#8, .memRead 0xFFFF, .reset]
      ∧ ∀ m ∈ s.moves, m.wellFormed Config.machine = true ∧ ∀ v, m ≠ .regWrite 0 v :=
  ⟨{ State.reset with moves := [.regWrite 0xF 1, .regRead 0xF, .memWrite 0xFFFF 1#8, .memRead 0xFFFF, .reset] }, rfl,
    by simp [HostMove.wellFormed, Config.machine]⟩

theorem witness_ResetValuesAreTheTable : ∃ n : Nat, n ≤ 0xB ∧ regOfNumber n = some .wsLen := ⟨0xB, by decide, rfl⟩

theorem witness_XorAndShiftByteByByte : ∃ j k : Nat, (j < 16 ∧ j = 0) ∧ 1 ≤ k ∧ k < 16 ∧ k = 15 := ⟨0, 15, by decide⟩

theorem witness_CounterIncrementKeepsTheLeftBytes : ∃ j : Nat, j < 12 ∧ j = 11 := ⟨11, by decide⟩

theorem witness_LengthBlockFormat : ∃ j : Nat, j < 16 ∧ j ∉ [6, 7, 14, 15] ∧ j = 13 := ⟨13, by decide⟩

theorem witness_InitialCounterBlockFormat : ∃ iv : Bytes, iv.length = 12 := ⟨List.replicate 12 0#8, rfl⟩

theorem witness_HashThreadsItsAccumulator : ∃ a : Bytes, a.length % 16 = 0 ∧ a ≠ [] :=
  ⟨List.replicate 16 1#8, by decide, by decide⟩

theorem witness_BlocksAndBytesDetermineEachOther : ∃ (bs : Bytes) (i : Nat), bs.length = 16 ∧ i < 128 :=
  ⟨List.replicate 16 1#8, 127, by decide, by decide⟩

theorem witness_MultiplierHasNoZeroDivisors : ∃ x y : Block, gfmul x y = 0#128 := ⟨0#128, 5#128, by decide +kernel⟩

theorem witness_PaddedVariantIsCounterMode : ∃ input : Bytes, input.length % 16 = 0 ∧ input ≠ [] :=
  ⟨List.replicate 32 1#8, by decide, by decide⟩

theorem witness_CounterModeIsItsOwnInverse : ∃ input : Bytes, input.length % 16 = 0 ∧ input ≠ [] :=
  ⟨List.replicate 48 1#8, by decide, by decide⟩

theorem witness_CounterModeByteByByte : ∃ (input : Bytes) (j : Nat), j < input.length ∧ j % 16 ≠ 0 ∧ 16 ≤ j :=
  ⟨plaintext 20, 19, by decide⟩

end Sys2Proof.Tests
end

/-! ## Byte strings in memory and in blocks (rules R8, R9, R10, R60) -/

namespace Sys2Proof.Machine

/-- Settles O14: each part is one of the memory laws about reading after `writeBytes`. -/
theorem memoryWriteThenRead : Obligations.MemoryWriteThenRead := by
  intro c m p bs
  refine ⟨readBytes_writeBytes_self c m p bs rfl, fun i hi => ?_, fun a ha => readByte_writeBytes_of_not_mem c m ha⟩
  rw [readByte_writeBytes, if_pos (by omega), Nat.add_sub_cancel_left]

/-- Horner's form of a big-endian number, which `blockOfBytes` computes, is the sum of the weighted bytes (R9). -/
theorem bigEndian_eq_sum (f : Nat → Byte) (n : Nat) :
    (List.range n).foldl (fun k j => 2 ^ 8 * k + (f j).toNat) 0
      = ((List.range n).map fun j => (f j).toNat * 2 ^ (8 * (n - 1 - j))).sum := by
  induction n with
  | zero => rfl
  | succ n ih =>
    have shift : ∀ j ∈ List.range n,
        (f j).toNat * 2 ^ (8 * (n + 1 - 1 - j)) = 2 ^ 8 * ((f j).toNat * 2 ^ (8 * (n - 1 - j))) := by
      intro j hj
      rw [List.mem_range] at hj
      rw [show 8 * (n + 1 - 1 - j) = 8 + 8 * (n - 1 - j) by omega, Nat.pow_add, Nat.mul_left_comm]
    rw [List.range_succ, List.foldl_append, List.map_append, List.sum_append, List.map_congr_left shift,
      List.sum_map_mul_left, ← ih]
    simp

/-- The value of the block of a byte string is the sum of its weighted bytes. -/
theorem toNat_blockOfBytes (bs : Bytes) :
    (blockOfBytes bs).toNat = ((List.range 16).map fun j => (bs.getD j 0#8).toNat * 2 ^ (8 * (15 - j))).sum := by
  rw [blockOfBytes, BitVec.toNat_ofNat, Nat.mod_eq_of_lt (bigEndian_digits (fun j => bs.getD j 0#8) 16).1]
  exact bigEndian_eq_sum (fun j => bs.getD j 0#8) 16

/-- The number `int128` of a block is the big-endian sum of its bytes (R9). -/
theorem block_toNat_eq_sum (x : Block) :
    x.toNat = ((List.range 16).map fun j => (byteOf x j).toNat * 2 ^ (8 * (15 - j))).sum := by
  have bytes : ∀ j ∈ List.range 16, ((blockBytes x).getD j 0#8).toNat * 2 ^ (8 * (15 - j))
      = (byteOf x j).toNat * 2 ^ (8 * (15 - j)) := by
    intro j hj
    rw [getD_blockBytes x (List.mem_range.mp hj)]
  calc x.toNat = (blockOfBytes (blockBytes x)).toNat := by rw [blockOfBytes_blockBytes]
    _ = _ := by rw [toNat_blockOfBytes, List.map_congr_left bytes]

/-- Field bit `i` is the `i`-th bit from the left: bit `7 - i mod 8` of byte `i div 8` is bit `127 - i` of the number. -/
theorem fbit_eq_getMsbD (x : Block) {i : Nat} (h : i < 128) : fbit x i = x.getMsbD i := by
  have bit : 8 * (15 - i / 8) + (7 - i % 8) = 128 - 1 - i := by omega
  rw [fbit, byteOf_getLsbD _ _ _ (by omega), bit, BitVec.getMsbD, decide_eq_true h, Bool.true_and]

/-- Settles O45: the two round trips of `blockBytes` and `blockOfBytes`, the big-endian sum, and the field bits. -/
theorem blocksAndBytesDetermineEachOther : Obligations.BlocksAndBytesDetermineEachOther :=
  ⟨blockOfBytes_blockBytes, fun _ h => blockBytes_blockOfBytes h, block_toNat_eq_sum, fun x _ h => fbit_eq_getMsbD x h⟩

end Sys2Proof.Machine

/-! ## Registers and host moves (rules R21, R33, R35 to R37, R90, R92) -/

namespace Sys2Proof.Machine

/-- A register number either is beyond the map of R21 or names one of its sixteen registers. -/
theorem missing_or_numberOfReg (n : Nat) : 0xF < n ∨ ∃ x, n = numberOfReg x := by
  cases hn : regOfNumber n with
  | none => exact .inl ((regOfNumber_eq_none_iff n).mp hn)
  | some x => exact .inr ⟨x, (regOfNumber_eq_some_iff n x).mp hn⟩

theorem exists_numberOfReg {n : Nat} (h : n ≤ 0xF) : ∃ x, n = numberOfReg x :=
  (missing_or_numberOfReg n).resolve_left (Nat.not_lt.mpr h)

theorem numberOfReg_injective {x y : RegName} (h : numberOfReg x = numberOfReg y) : x = y := by
  have hx := regOfNumber_numberOfReg x
  rw [h, regOfNumber_numberOfReg] at hx
  exact (Option.some.inj hx).symm

@[simp] theorem valueOfReg_numberOfReg (c : Config) (s : State) (x : RegName) :
    valueOfReg c s (numberOfReg x) = some (readReg c s.regs x) := by
  rw [valueOfReg, regOfNumber_numberOfReg, Option.map_some]

theorem valueOfReg_of_missing (c : Config) (s : State) {n : Nat} (h : 0xF < n) : valueOfReg c s n = none := by
  rw [valueOfReg, (regOfNumber_eq_none_iff n).mpr h, Option.map_none]

/-! ### One register write -/

/-- A write reaches no other register; the registers that are not descriptors do not even reach their own. -/
theorem readReg_writeReg_of_ne (c : Config) (r : Regs) (v : Nat) {x y : RegName} (h : y ≠ x) :
    readReg c (writeReg c r v x) y = readReg c r y := by
  cases x with
  | cmd | status | wsminEnc | wsminEncp | wsminDec | reserved => rfl
  | keyPtr | ivPtr | aadPtr | aadLen | dinPtr | dinLen | doutPtr | tagPtr | wsPtr | wsLen =>
    cases y <;> simp [readReg, writeReg] at h ⊢

theorem readReg_writeReg_pointer (c : Config) (r : Regs) (v : Nat) {x : RegName}
    (h : numberOfReg x ∈ [0x2, 0x3, 0x4, 0x6, 0x8, 0x9, 0xA]) :
    readReg c (writeReg c r v x) x = v % 2 ^ c.AW := by
  cases x <;> simp [numberOfReg] at h <;> rfl

theorem readReg_writeReg_length (c : Config) (r : Regs) (v : Nat) {x : RegName}
    (h : numberOfReg x ∈ [0x5, 0x7, 0xB]) : readReg c (writeReg c r v x) x = v % 2 ^ 16 := by
  cases x <;> simp [numberOfReg] at h <;> exact BitVec.toNat_ofNat v 16

theorem writeReg_readOnly (c : Config) (r : Regs) (v : Nat) {x : RegName}
    (h : numberOfReg x ∈ [0x1, 0xC, 0xD, 0xE, 0xF]) : writeReg c r v x = r := by
  cases x <;> simp [numberOfReg] at h <;> rfl

/-! ### One host move -/

section Moves

variable (c : Config) (run : Instr → State → Host.Outcome State Fault Refusal) (s : State)

theorem runMove_regWrite_cmd (v : Nat) : runMove c run (.regWrite 0 v) s = writeCmd run v s := rfl

theorem runMove_regWrite {x : RegName} (hx : x ≠ .cmd) (v : Nat) :
    runMove c run (.regWrite (numberOfReg x) v) s = .next { s with regs := writeReg c s.regs v x } := by
  cases x with
  | cmd => exact absurd rfl hx
  | _ => rfl

theorem runMove_regWrite_missing {n : Nat} (hn : 0xF < n) (v : Nat) :
    runMove c run (.regWrite n v) s = .refused (.noSuchRegister n) := by
  rw [runMove, regWrite, (regOfNumber_eq_none_iff n).mpr hn]

theorem runMove_regRead (x : RegName) :
    runMove c run (.regRead (numberOfReg x)) s
      = .next (reply s (.reg (numberOfReg x) (readReg c s.regs x))) := by
  rw [runMove, regRead, regOfNumber_numberOfReg]

theorem runMove_regRead_missing {n : Nat} (hn : 0xF < n) :
    runMove c run (.regRead n) s = .refused (.noSuchRegister n) := by
  rw [runMove, regRead, (regOfNumber_eq_none_iff n).mpr hn]

/-- Every move is a CMD write, or stops on a register or an address that does not exist, or answers a state and leaves
the waiting moves alone. -/
theorem runMove_outcome (m : HostMove) :
    (∃ v, m = .regWrite 0 v)
      ∨ (∃ n, 0xF < n ∧ (m = .regRead n ∨ ∃ v, m = .regWrite n v)
          ∧ runMove c run m s = .refused (.noSuchRegister n))
      ∨ (∃ a, 2 ^ c.AW ≤ a ∧ (m = .memRead a ∨ ∃ b, m = .memWrite a b)
          ∧ runMove c run m s = .fault (.noSuchAddress a))
      ∨ ∃ t, runMove c run m s = .next t ∧ t.moves = s.moves := by
  cases m with
  | regWrite n v =>
    rcases missing_or_numberOfReg n with hn | ⟨x, rfl⟩
    · exact .inr (.inl ⟨n, hn, .inr ⟨v, rfl⟩, runMove_regWrite_missing c run s hn v⟩)
    · by_cases hx : x = .cmd
      · exact .inl ⟨v, by rw [hx, numberOfReg]⟩
      · exact .inr (.inr (.inr ⟨_, runMove_regWrite c run s hx v, rfl⟩))
  | regRead n =>
    rcases missing_or_numberOfReg n with hn | ⟨x, rfl⟩
    · exact .inr (.inl ⟨n, hn, .inl rfl, runMove_regRead_missing c run s hn⟩)
    · exact .inr (.inr (.inr ⟨_, runMove_regRead c run s x, rfl⟩))
  | memWrite a b =>
    by_cases ha : a < 2 ^ c.AW
    · exact .inr (.inr (.inr ⟨_, if_pos ha, rfl⟩))
    · exact .inr (.inr (.inl ⟨a, Nat.not_lt.mp ha, .inr ⟨b, rfl⟩, if_neg ha⟩))
  | memRead a =>
    by_cases ha : a < 2 ^ c.AW
    · exact .inr (.inr (.inr ⟨_, if_pos ha, rfl⟩))
    · exact .inr (.inr (.inl ⟨a, Nat.not_lt.mp ha, .inl rfl, if_neg ha⟩))
  | reset => exact .inr (.inr (.inr ⟨_, rfl, rfl⟩))

/-- A well-formed move that is no CMD write answers a state: its register or address exists (R37, R40). -/
theorem runMove_of_wellFormed {m : HostMove} (hm : m.wellFormed c = true) (hcmd : ∀ v, m ≠ .regWrite 0 v) :
    ∃ t, runMove c run m s = .next t ∧ t.moves = s.moves := by
  rcases runMove_outcome c run s m with ⟨v, rfl⟩ | ⟨n, hn, hreg, -⟩ | ⟨a, ha, hadr, -⟩ | ht
  · exact absurd rfl (hcmd v)
  · rcases hreg with rfl | ⟨v, rfl⟩ <;> exact absurd (of_decide_eq_true hm) (by omega)
  · rcases hadr with rfl | ⟨b, rfl⟩ <;> exact absurd (of_decide_eq_true hm) (Nat.not_lt.mpr ha)
  · exact ht

end Moves

theorem step_idle {s : State} (h : s.moves = []) : step s = .next s := by rw [step, stepMove, h]

theorem step_regWrite {s : State} {x : RegName} {v : Nat} {ms : List HostMove}
    (h : s.moves = .regWrite (numberOfReg x) v :: ms) (hx : x ≠ .cmd) :
    step s = .next { s with moves := ms, regs := writeReg Config.machine s.regs v x } := by
  rw [step_cons h, runMove_regWrite _ _ _ hx]

theorem step_regRead {s : State} {x : RegName} {ms : List HostMove} (h : s.moves = .regRead (numberOfReg x) :: ms) :
    step s = .next { s with
      moves := ms, replies := s.replies ++ [.reg (numberOfReg x) (readReg Config.machine s.regs x)] } := by
  rw [step_cons h, runMove_regRead, reply]

/-- A CMD write runs the command its low byte decodes to (R33). -/
theorem step_command {s : State} {v : Nat} {ms : List HostMove} {i : Instr} (h : s.moves = .regWrite 0 v :: ms)
    (hi : decode (opcodeOf v) = .ok i) : step s = exec i { s with moves := ms } := by
  rw [step_cons h, runMove_regWrite_cmd, writeCmd, hi]

/-- A CMD write of an undefined opcode completes with IllegalCommand (R100, R208). -/
theorem step_illegal {s : State} {v : Nat} {ms : List HostMove} {e : DecodeError} (h : s.moves = .regWrite 0 v :: ms)
    (he : decode (opcodeOf v) = .error e) : step s = .next (raiseErr .illegalCommand { s with moves := ms }) := by
  rw [step_cons h, runMove_regWrite_cmd, writeCmd, he]

/-- Settles O3: `step_command`, and the opcode of a command decodes to it. -/
theorem commandWriteRunsTheDecodedCommand : Obligations.CommandWriteRunsTheDecodedCommand := by
  refine ⟨fun s v ms i h hi => step_command h hi, fun s i => ?_⟩
  have hi : decode (opcodeOf ((encode i).toNat % 2 ^ 8)) = .ok i := by cases i <;> rfl
  exact step_command (s := s.withFetchWord 8 (encode i).toNat) rfl hi

/-- Settles O6: a write to register `x` is `writeReg`, whose effect on each register is known. -/
theorem registerWriteTruncatesOrIsIgnored : Obligations.RegisterWriteTruncatesOrIsIgnored := by
  intro s n v ms h hpos hle
  obtain ⟨x, rfl⟩ := exists_numberOfReg hle
  have hx : x ≠ .cmd := fun hc => absurd hpos (by rw [hc]; decide)
  refine ⟨writeReg Config.machine s.regs v x, step_regWrite h hx, fun hp => ?_, fun hl => ?_,
    writeReg_readOnly _ _ v, fun k hk => ?_⟩
  · rw [valueOfReg_numberOfReg, readReg_writeReg_pointer _ _ v hp]
  · rw [valueOfReg_numberOfReg, readReg_writeReg_length _ _ v hl]
  · rcases missing_or_numberOfReg k with hm | ⟨y, rfl⟩
    · rw [valueOfReg_of_missing _ _ hm, valueOfReg_of_missing _ _ hm]
    · rw [valueOfReg_numberOfReg, valueOfReg_numberOfReg,
        readReg_writeReg_of_ne _ _ v fun hyx => hk (congrArg numberOfReg hyx)]

/-- Settles O7: the answer is `readReg` of the one register that has the number. -/
theorem registerReadReturnsTheValue : Obligations.RegisterReadReturnsTheValue := by
  intro s n ms h hle
  obtain ⟨x, rfl⟩ := exists_numberOfReg hle
  have value : ∀ y, numberOfReg x = numberOfReg y →
      readReg Config.machine s.regs x = readReg Config.machine s.regs y :=
    fun y hxy => congrArg _ (numberOfReg_injective hxy)
  exact ⟨readReg Config.machine s.regs x, step_regRead h, value .cmd, value .status, value .keyPtr, value .ivPtr,
    value .aadPtr, value .aadLen, value .dinPtr, value .dinLen, value .doutPtr, value .tagPtr, value .wsPtr,
    value .wsLen, value .wsminEnc, value .wsminEncp, value .wsminDec, value .reserved⟩

/-- Settles O8: the two moves on register 0xF, and the two on a register that does not exist. -/
theorem reservedAndMissingRegisters : Obligations.ReservedAndMissingRegisters := by
  intro s n v ms
  refine ⟨fun h => step_regWrite (x := .reserved) h (by decide), step_regRead (x := .reserved), fun hn h => ?_,
    fun hn h => ?_⟩
  · rw [step_cons h, runMove_regWrite_missing _ _ _ hn]
  · rw [step_cons h, runMove_regRead_missing _ _ _ hn]

end Sys2Proof.Machine

/-! ## Commands: STATUS plays no part, and the workspace check comes first (rules R36, R38, R43, R232, R262) -/

namespace Sys2Proof.Machine

/-- Settles O4. -/
theorem execRunsTheMachinesConfiguration : Obligations.ExecRunsTheMachinesConfiguration := exec_eq_runCommand

/-- No body reads STATUS, and each writes it when it completes. -/
theorem bodyOf_setStatus (c : Config) (i : Instr) (s : State) (x : Byte) :
    bodyOf c i (setStatus s x) = bodyOf c i s := by
  cases i with
  | gcmEnc => rfl
  | gcmEncp => rfl
  | gcmDec => rfl

/-- A command meets the same checks and runs the same body whatever STATUS held. -/
theorem runCommand_setStatus (c : Config) (i : Instr) (s : State) (x : Byte) :
    runCommand c i (setStatus s x) = runCommand c i s := by
  have hp : precheck c i (setStatus s x).regs = precheck c i s.regs := rfl
  have hr : regionCheck c i (setStatus s x).regs = regionCheck c i s.regs := rfl
  have he (e : ErrCode) : raiseErr e (setStatus s x) = raiseErr e s := rfl
  simp only [runCommand_eq_guarded, guarded, hp, hr, he, bodyOf_setStatus]

/-- Settles O22, by `runCommand_setStatus`. -/
theorem outcomeDoesNotDependOnStatus : Obligations.OutcomeDoesNotDependOnStatus := by
  intro i s x
  rw [exec_eq_runCommand, exec_eq_runCommand]
  exact runCommand_setStatus Config.machine i s x

/-- WSCHECK is the first check: a short workspace is reported whatever else holds (R255, R258). -/
theorem runCommand_of_workspaceShort {c : Config} {i : Instr} {s : State} (h : s.regs.wsLen.toNat < wsMin c i) :
    runCommand c i s = .next { s with regs := { s.regs with status := 0x51#8 } } := by
  rw [runCommand_eq_guarded, guarded, precheck, if_pos ((workspaceShort_iff c i s.regs).mpr h)]
  rfl

/-- Settles O19: the sizing register reads `wsMin`, so one more than WS_LEN there means a short workspace. -/
theorem workspaceOneByteShortAlwaysFails : Obligations.WorkspaceOneByteShortAlwaysFails := by
  intro i n s hi
  have hmin : valueOfReg Config.machine s n = some (wsMin Config.machine i) := by
    simp only [List.mem_cons, Prod.mk.injEq, List.not_mem_nil, or_false] at hi
    rcases hi with ⟨rfl, rfl⟩ | ⟨rfl, rfl⟩ | ⟨rfl, rfl⟩ <;> rfl
  refine ⟨hmin, fun hlen => ?_⟩
  have hshort : wsMin Config.machine i = s.regs.wsLen.toNat + 1 := Option.some.inj (hmin.symm.trans hlen)
  rw [exec_eq_runCommand]
  exact runCommand_of_workspaceShort (by omega)

/-- Settles O10: the reset register file read register by register; its WS_LEN of 0 is below any minimum. -/
theorem resetValuesAreTheTable : Obligations.ResetValuesAreTheTable := by
  refine ⟨by decide, rfl, rfl, rfl, rfl, rfl, rfl, rfl, readByte_nil Config.machine, ?_⟩
  rw [exec_eq_runCommand]
  exact runCommand_of_workspaceShort (by decide)

end Sys2Proof.Machine

/-! ## What a step changes, and the invariant (rules R21, R35, R40, R42, R68, R209, R280) -/

namespace Sys2Proof.Machine

/-- Settles O15: a canonical memory lists exactly the bytes that differ from the launch values. -/
theorem equalMemoriesAreEqualData : Obligations.EqualMemoriesAreEqualData := by
  intro c m m' hm hm' hread
  refine eq_of_rising_of_mem_iff ((memoryWf_iff c m).mp hm).1 ((memoryWf_iff c m').mp hm').1 fun ⟨a, b⟩ => ?_
  rw [mem_iff_readByte hm, mem_iff_readByte hm', hread a]

theorem statusLegal_statusOfErr (e : ErrCode) : statusLegal (statusOfErr e) = true := by cases e <;> rfl

/-- A command that answers has put one of the nine values in STATUS, and changed no other register (R209). -/
theorem runCommand_next_regs {c : Config} {i : Instr} {s t : State} (h : runCommand c i s = .next t) :
    ∃ b, statusLegal b = true ∧ t.regs = { s.regs with status := b } := by
  rcases runCommand_next h with ⟨e, -, rfl⟩ | ⟨hready, rfl⟩
  · exact ⟨statusOfErr e, statusLegal_statusOfErr e, rfl⟩
  · obtain ⟨b, hb, hregs⟩ := bodyOf_regs hready
    refine ⟨b, ?_, hregs⟩
    rcases hb with rfl | ⟨rfl, -⟩ <;> rfl

theorem runCommand_next_memoryWf {c : Config} {i : Instr} {s t : State} (hc : c.wellFormed = true)
    (h : runCommand c i s = .next t) (hm : memoryWf c s.mem = true) : memoryWf c t.mem = true := by
  rcases runCommand_next h with ⟨e, -, rfl⟩ | ⟨hready, rfl⟩
  · exact hm
  · exact bodyOf_memoryWf hc hready hm

/-- What a step from `s` to `t` did to the registers and to MEM, by the host's move. -/
inductive StepEffect (s t : State) : Prop where
  /-- No move, a register read or a byte read. -/
  | unchanged (hregs : t.regs = s.regs) (hmem : t.mem = s.mem)
  /-- A CMD write, of a defined opcode or not. -/
  | command (v : Nat) (ms : List HostMove) (hmove : s.moves = .regWrite 0 v :: ms) (b : Byte)
      (hb : statusLegal b = true) (hregs : t.regs = { s.regs with status := b })
      (hmem : memoryWf Config.machine s.mem = true → memoryWf Config.machine t.mem = true)
  /-- A write to a register other than CMD. -/
  | register (x : RegName) (v : Nat) (ms : List HostMove) (hmove : s.moves = .regWrite (numberOfReg x) v :: ms)
      (hregs : t.regs = writeReg Config.machine s.regs v x) (hmem : t.mem = s.mem)
  /-- A byte write inside the address space. -/
  | byte (a : Nat) (b : Byte) (ms : List HostMove) (hmove : s.moves = .memWrite a b :: ms)
      (ha : a < 2 ^ Config.machine.AW) (hregs : t.regs = s.regs) (hmem : t.mem = writeByte Config.machine s.mem a b)
  /-- The reset event. -/
  | reset (ms : List HostMove) (hmove : s.moves = .reset :: ms) (hregs : t.regs = Regs.reset) (hmem : t.mem = s.mem)

/-- Every step that answers is one of these. -/
theorem stepEffect_of_next {s t : State} (h : step s = .next t) : StepEffect s t := by
  rcases step_next h with ⟨-, rfl⟩ | ⟨m, ms, hmove, hrun⟩
  · exact .unchanged rfl rfl
  rcases runMove_next hrun with ⟨v, i, rfl, -, hcmd⟩ | ⟨v, e, rfl, -, rfl⟩ | ⟨v, x, rfl, -, rfl⟩ | ⟨x, rfl, rfl⟩
    | ⟨a, b, rfl, ha, rfl⟩ | ⟨a, rfl, -, rfl⟩ | ⟨rfl, rfl⟩
  · rw [exec_eq_runCommand] at hcmd
    obtain ⟨b, hb, hregs⟩ := runCommand_next_regs hcmd
    exact .command v ms hmove b hb hregs fun hm =>
      runCommand_next_memoryWf (s := { s with moves := ms }) machine_wellFormed hcmd hm
  · exact .command v ms hmove _ (statusLegal_statusOfErr .illegalCommand) rfl id
  · exact .register x v ms hmove rfl rfl
  · exact .unchanged rfl rfl
  · exact .byte a b ms hmove ha rfl rfl
  · exact .unchanged rfl rfl
  · exact .reset ms hmove rfl rfl

/-- Settles O20: of the effects of a step only a CMD write and reset reach STATUS. -/
theorem statusChangesOnlyByCommandOrReset : Obligations.StatusChangesOnlyByCommandOrReset := by
  intro s t h hne
  cases stepEffect_of_next h with
  | unchanged hregs => exact absurd (congrArg Regs.status hregs) hne
  | command v ms hmove => exact .inr ⟨v, ms, hmove⟩
  | register x v ms _ hregs => exact absurd (by rw [hregs, writeReg_status]) hne
  | byte a b ms _ _ hregs => exact absurd (congrArg Regs.status hregs) hne
  | reset ms hmove => exact .inl ⟨ms, hmove⟩

theorem sameDescriptors_of_status {r r' : Regs} {b : Byte} (h : r' = { r with status := b }) :
    SameDescriptors r r' := by rw [h, SameDescriptors]

/-- A register write that changes a descriptor register is a write to one of the ten. -/
theorem sameDescriptors_writeReg_or (c : Config) (r : Regs) (v : Nat) (x : RegName) :
    SameDescriptors r (writeReg c r v x)
      ∨ numberOfReg x ∈ [0x2, 0x3, 0x4, 0x5, 0x6, 0x7, 0x8, 0x9, 0xA, 0xB] := by
  cases x with
  | cmd | status | wsminEnc | wsminEncp | wsminDec | reserved => exact .inl rfl
  | keyPtr | ivPtr | aadPtr | aadLen | dinPtr | dinLen | doutPtr | tagPtr | wsPtr | wsLen => exact .inr (by decide)

/-- Settles O39: of the effects of a step only a register write and reset reach a descriptor, and only a byte write and
a CMD write reach MEM. -/
theorem onlyTheHostWritesDescriptors : Obligations.OnlyTheHostWritesDescriptors := by
  intro s t h
  cases stepEffect_of_next h with
  | unchanged hregs hmem => exact ⟨fun hd => absurd (sameDescriptors_of_status hregs) hd, fun hm => absurd hmem hm⟩
  | command v ms hmove b _ hregs =>
    exact ⟨fun hd => absurd (sameDescriptors_of_status hregs) hd, fun _ => .inr ⟨v, ms, hmove⟩⟩
  | register x v ms hmove hregs hmem =>
    refine ⟨fun hd => .inr ⟨_, v, ms, hmove, ?_⟩, fun hm => absurd hmem hm⟩
    rw [hregs] at hd
    exact (sameDescriptors_writeReg_or Config.machine s.regs v x).resolve_left hd
  | byte a b ms hmove _ hregs =>
    exact ⟨fun hd => absurd (sameDescriptors_of_status hregs) hd, fun _ => .inl ⟨a, b, ms, hmove⟩⟩
  | reset ms hmove _ hmem => exact ⟨fun _ => .inl ⟨ms, hmove⟩, fun hm => absurd hmem hm⟩

/-! ### The invariant -/

theorem Regs.legal_iff (c : Config) (r : Regs) :
    r.legal c = true ↔ statusLegal r.status = true
      ∧ ∀ p ∈ [r.keyPtr, r.ivPtr, r.aadPtr, r.dinPtr, r.doutPtr, r.tagPtr, r.wsPtr], p < 2 ^ c.AW := by
  simp only [Regs.legal, Bool.and_eq_true, List.all_eq_true, decide_eq_true_eq]

theorem Regs.legal_reset (c : Config) : Regs.reset.legal c = true := by
  simp [Regs.legal_iff, Regs.reset, statusLegal]

theorem Regs.legal_withStatus {c : Config} {r : Regs} {b : Byte} (h : r.legal c = true) (hb : statusLegal b = true) :
    Regs.legal c { r with status := b } = true :=
  (Regs.legal_iff c _).mpr ⟨hb, ((Regs.legal_iff c r).mp h).2⟩

theorem ptrOf_lt (c : Config) (v : Nat) : ptrOf c v < 2 ^ c.AW := Nat.mod_lt v (Nat.two_pow_pos c.AW)

/-- A register write truncates what it stores in a pointer to the pointer's width, and never stores STATUS. -/
theorem Regs.legal_writeReg {c : Config} {r : Regs} (h : r.legal c = true) (v : Nat) (x : RegName) :
    (writeReg c r v x).legal c = true := by
  rw [Regs.legal_iff] at h ⊢
  rw [writeReg_status]
  obtain ⟨hstatus, hptrs⟩ := h
  refine ⟨hstatus, ?_⟩
  cases x with
  | cmd | status | aadLen | dinLen | wsLen | wsminEnc | wsminEncp | wsminDec | reserved => exact hptrs
  | keyPtr | ivPtr | aadPtr | dinPtr | doutPtr | tagPtr | wsPtr =>
    simp only [List.forall_mem_cons] at hptrs
    simp [writeReg, ptrOf_lt, hptrs]

/-- Settles O37. -/
theorem resetMeetsTheInvariant : Obligations.ResetMeetsTheInvariant :=
  ⟨Regs.legal_reset Config.machine, memoryWf_nil Config.machine⟩

/-- Settles O38: each effect of a step keeps the register file legal and MEM canonical. -/
theorem everyStepKeepsTheInvariant : Obligations.EveryStepKeepsTheInvariant := by
  intro s t ⟨hlegal, hwf⟩ h
  cases stepEffect_of_next h with
  | unchanged hregs hmem => exact ⟨by rwa [hregs], by rwa [hmem]⟩
  | command v ms _ b hb hregs hmem => exact ⟨by rw [hregs]; exact Regs.legal_withStatus hlegal hb, hmem hwf⟩
  | register x v ms _ hregs hmem => exact ⟨by rw [hregs]; exact Regs.legal_writeReg hlegal v x, by rwa [hmem]⟩
  | byte a b ms _ ha hregs hmem => exact ⟨by rwa [hregs], by rw [hmem]; exact memoryWf_writeByte b hwf ha⟩
  | reset ms _ hregs hmem => exact ⟨by rw [hregs]; exact Regs.legal_reset Config.machine, by rwa [hmem]⟩

end Sys2Proof.Machine

/-! ## Where a step stops, and where it cannot (rules R37, R40, R66, R67, R92) -/

namespace Sys2Proof.Machine

/-- What a refusal by the region checks says of the regions: one is invalid, or all are valid and a written one meets
another (R66, R67; log 11). -/
def RegionsRefuse (c : Config) (i : Instr) (r : Regs) (e : Refusal) : Prop :=
  (e = .invalidRegion ∧ ¬ RegionsValid c r) ∨ (e = .overlappingRegions ∧ RegionsValid c r ∧ ¬ RegionsApart i r)

theorem regionsRefuse_of_regionCheck {c : Config} {i : Instr} {r : Regs} {e : Refusal}
    (h : regionCheck c i r = some e) : RegionsRefuse c i r e := by
  classical
  rw [regionCheck_eq] at h
  split at h
  next hvalid =>
    split at h
    next => cases h
    next hmeet => exact .inr ⟨(Option.some.inj h).symm, hvalid, hmeet⟩
  next hinvalid => exact .inl ⟨(Option.some.inj h).symm, hinvalid⟩

/-- A command answers, or passes its precondition checks and is refused for its regions; it never faults. -/
theorem runCommand_outcome (c : Config) (i : Instr) (s : State) :
    (∃ t, runCommand c i s = .next t)
      ∨ ∃ r, PreconditionsMet c i s.regs ∧ RegionsRefuse c i s.regs r ∧ runCommand c i s = .refused r := by
  rw [runCommand_eq_guarded]
  rcases guarded_cases c i (bodyOf c i) s with ⟨e, -, hg⟩ | ⟨r, hmet, hcheck, hg⟩ | ⟨-, hg⟩
  · exact .inl ⟨_, hg⟩
  · exact .inr ⟨r, hmet, regionsRefuse_of_regionCheck hcheck, hg⟩
  · exact .inl ⟨_, hg⟩

/-- Every step answers, or stops on a register or an address that does not exist, or on a refused command. -/
theorem step_outcome (s : State) :
    (∃ t, step s = .next t)
      ∨ (∃ n ms, 0xF < n ∧ (s.moves = .regRead n :: ms ∨ ∃ v, s.moves = .regWrite n v :: ms)
          ∧ step s = .refused (.noSuchRegister n))
      ∨ (∃ a ms, 2 ^ Config.machine.AW ≤ a ∧ (s.moves = .memRead a :: ms ∨ ∃ b, s.moves = .memWrite a b :: ms)
          ∧ step s = .fault (.noSuchAddress a))
      ∨ ∃ v ms i r, s.moves = .regWrite 0 v :: ms ∧ decode (opcodeOf v) = .ok i
          ∧ PreconditionsMet Config.machine i s.regs ∧ RegionsRefuse Config.machine i s.regs r
          ∧ step s = .refused r := by
  cases hmoves : s.moves with
  | nil => exact .inl ⟨s, step_idle hmoves⟩
  | cons m ms =>
    have hstep := step_cons hmoves
    rcases runMove_outcome Config.machine exec { s with moves := ms } m with
      ⟨v, rfl⟩ | ⟨n, hn, hm, hrun⟩ | ⟨a, ha, hm, hrun⟩ | ⟨t, hrun, -⟩
    · cases hdec : decode (opcodeOf v) with
      | error e => exact .inl ⟨_, step_illegal hmoves hdec⟩
      | ok i =>
        rw [step_command hmoves hdec, exec_eq_runCommand]
        rcases runCommand_outcome Config.machine i { s with moves := ms } with hnext | ⟨r, hmet, hregions, hrun⟩
        · exact .inl hnext
        · exact .inr (.inr (.inr ⟨v, ms, i, r, rfl, hdec, hmet, hregions, hrun⟩))
    · exact .inr (.inl ⟨n, ms, hn, by simpa using hm, hstep.trans hrun⟩)
    · exact .inr (.inr (.inl ⟨a, ms, ha, by simpa using hm, hstep.trans hrun⟩))
    · exact .inl ⟨t, hstep.trans hrun⟩

/-- Settles O40: of the outcomes of a step one is a fault and two are refusals. -/
theorem stopsOnlyOnMissingTargetsAndRegions : Obligations.StopsOnlyOnMissingTargetsAndRegions := by
  intro s
  rcases step_outcome s with ⟨t, hs⟩ | ⟨n, ms, hn, hmove, hs⟩ | ⟨a, ms, ha, hmove, hs⟩
    | ⟨v, ms, i, r, hmove, hdec, hmet, hregions, hs⟩ <;> rw [hs]
  · exact ⟨fun _ h => (nomatch h), fun _ h => (nomatch h)⟩
  · exact ⟨fun _ h => (nomatch h), fun _ h => .inl ⟨n, ms, hn, (Host.Outcome.refused.inj h).symm, hmove⟩⟩
  · exact ⟨fun _ h => ⟨a, ms, ha, (Host.Outcome.fault.inj h).symm, hmove⟩, fun _ h => (nomatch h)⟩
  · exact ⟨fun _ h => (nomatch h),
      fun _ h => .inr ⟨v, ms, i, hmove, hdec, hmet, Host.Outcome.refused.inj h ▸ hregions⟩⟩

theorem run_succ_of_next {M : Host.Core} {s t : M.State} (h : M.step s = .next t) (k : Nat) :
    M.run (k + 1) s = M.run k t := by rw [Host.Core.run, h]

/-- A run of no steps does not stop. -/
theorem safeRun_zero (s : State) : safeRun 0 s := trivial

/-- A run is safe when its first step answers and the rest is safe. -/
theorem safeRun_succ {s t : State} {k : Nat} (h : step s = .next t) (ht : safeRun k t) : safeRun (k + 1) s := by
  rw [safeRun, run_succ_of_next (M := core) h]
  exact ht

/-- Settles O41, by induction on the number of steps: a step makes the first waiting move, which answers, and leaves
the others waiting; with none waiting the state stays as it is. -/
theorem hostAccessesNeverStop : Obligations.HostAccessesNeverStop := by
  intro s hs k
  induction k generalizing s with
  | zero => exact safeRun_zero s
  | succ k ih =>
    cases hmoves : s.moves with
    | nil => exact safeRun_succ (step_idle hmoves) (ih s hs)
    | cons m ms =>
      rw [hmoves] at hs
      obtain ⟨hm, hms⟩ := List.forall_mem_cons.mp hs
      obtain ⟨t, hrun, ht⟩ := runMove_of_wellFormed Config.machine exec { s with moves := ms } hm.1 hm.2
      exact safeRun_succ ((step_cons hmoves).trans hrun) (ih t (by rwa [ht]))

end Sys2Proof.Machine

/-! ## Commands that the region checks refuse (rules R66, R67, R70, R201) -/

namespace Sys2Proof.Machine

/-- The converse of `regionsRefuse_of_regionCheck`: validity is checked first, so an overlap is reported only when every
region is valid (log 11). -/
theorem regionCheck_of_regionsRefuse {c : Config} {i : Instr} {r : Regs} {e : Refusal}
    (h : RegionsRefuse c i r e) : regionCheck c i r = some e := by
  classical
  rw [regionCheck_eq]
  rcases h with ⟨rfl, hinvalid⟩ | ⟨rfl, hvalid, hmeet⟩
  · rw [if_neg hinvalid]
  · rw [if_pos hvalid, if_neg hmeet]

/-- A command whose precondition checks pass answers with the refusal of its region checks (R201). -/
theorem runCommand_of_regionsRefuse {c : Config} {i : Instr} {s : State} {e : Refusal}
    (hmet : PreconditionsMet c i s.regs) (h : RegionsRefuse c i s.regs e) : runCommand c i s = .refused e := by
  rw [runCommand_eq_guarded, guarded, (precheck_eq_none_iff c i s.regs).mpr hmet, regionCheck_of_regionsRefuse h]

/-- Settles O16: an invalid region, and an overlap of valid ones, are the two cases of `RegionsRefuse`. -/
theorem invalidOrOverlappingRegionsAreRefused : Obligations.InvalidOrOverlappingRegionsAreRefused := by
  intro i s hmet
  rw [exec_eq_runCommand]
  exact ⟨fun hinvalid => runCommand_of_regionsRefuse hmet (.inl ⟨rfl, hinvalid⟩),
    fun hvalid hmeet => runCommand_of_regionsRefuse hmet (.inr ⟨rfl, hvalid, hmeet⟩)⟩

end Sys2Proof.Machine

/-! ## The opcode map and the two directions of the encoding (rules R90, R91, R100) -/

namespace Sys2Proof

theorem decode_encode (i : Instr) : decode (encode i) = .ok i := by cases i <;> rfl

/-- The opcode of a byte written to CMD, zero-extended, is the byte (R33). -/
theorem opcodeOf_toNat (b : Byte) : opcodeOf b.toNat = b := by
  rw [opcodeOf, BitVec.ofNat_toNat, BitVec.setWidth_eq]

/-- A byte that is no row of the opcode table is rejected by name. -/
theorem decode_illegal {b : Byte} (henc : b ≠ 0x01#8) (hencp : b ≠ 0x02#8) (hdec : b ≠ 0x03#8) :
    decode b = .error (.illegalOpcode b) := by
  rw [decode, if_neg henc, if_neg hencp, if_neg hdec]

/-- Each row of the opcode table is the only byte of its command. -/
theorem decode_eq_ok_iff (b : Byte) (i : Instr) : decode b = .ok i ↔ b = encode i := by
  constructor
  · intro h
    unfold decode at h
    split_ifs at h with henc hencp hdec
    · cases h; exact henc
    · cases h; exact hencp
    · cases h; exact hdec
  · rintro rfl
    exact decode_encode i

/-- Settles O1: the three rows of the table, and `decode_illegal` for every other byte. -/
theorem opcodeMapIsTheTable : Obligations.OpcodeMapIsTheTable :=
  ⟨decode_encode .gcmEnc, decode_encode .gcmEncp, decode_encode .gcmDec, fun _ => decode_illegal⟩

/-- Settles O2, by the two directions of `decode_eq_ok_iff`. -/
theorem decodeAndEncodeAgree : Obligations.DecodeAndEncodeAgree :=
  fun i _ => ⟨decode_encode i, fun b => (decode_eq_ok_iff b i).mp⟩

end Sys2Proof

/-! ## The initial counter block (rules R61, R94, R181) -/

namespace Sys2Proof.Machine

/-- The counter of a block is in its last four bytes (R61). -/
theorem ctrOf_congr {x y : Block} (h : ∀ j, 12 ≤ j → j < 16 → byteOf x j = byteOf y j) : ctrOf x = ctrOf y := by
  refine BitVec.eq_of_getLsbD_eq fun k hk => ?_
  have hbyte : (byteOf x (15 - k / 8)).getLsbD (k % 8) = (byteOf y (15 - k / 8)).getLsbD (k % 8) := by
    rw [h (15 - k / 8) (by omega) (by omega)]
  have hplace : 8 * (15 - (15 - k / 8)) + k % 8 = k := by omega
  rw [byteOf_getLsbD _ _ _ (Nat.mod_lt k (by decide)), byteOf_getLsbD _ _ _ (Nat.mod_lt k (by decide)), hplace]
    at hbyte
  simpa [ctrOf, hk] using hbyte

theorem blockBytes_makeJ0 {iv : Bytes} (h : iv.length = 12) :
    blockBytes (makeJ0 iv) = iv ++ [0x00#8, 0x00#8, 0x00#8, 0x01#8] := by
  rw [makeJ0, List.take_of_length_le h.le, blockBytes_blockOfBytes (by simp [h])]

/-- The last four bytes of J0 are those of the number 1. -/
theorem ctrOf_makeJ0 {iv : Bytes} (h : iv.length = 12) : ctrOf (makeJ0 iv) = 1#32 := by
  have hone : ∀ j, j < 16 → 12 ≤ j → [0x00#8, 0x00#8, 0x00#8, 0x01#8].getD (j - 12) 0#8 = byteOf 1#128 j := by decide
  calc ctrOf (makeJ0 iv) = ctrOf 1#128 := ctrOf_congr fun j hlo hhi => by
        rw [← getD_blockBytes _ hhi, blockBytes_makeJ0 h, List.getD_append_right _ _ _ _ (by omega), h, hone j hhi hlo]
    _ = 1#32 := by decide

/-- Settles O52. -/
theorem initialCounterBlockFormat : Obligations.InitialCounterBlockFormat :=
  fun _ h => ⟨blockBytes_makeJ0 h, ctrOf_makeJ0 h⟩

end Sys2Proof.Machine

/-! ## The host's byte accesses of MEM (rules R40, R92) -/

namespace Sys2Proof.Machine

section ByteMoves

variable (c : Config) (run : Instr → State → Host.Outcome State Fault Refusal) (s : State) {a : Nat}

theorem runMove_memWrite (b : Byte) (ha : a < 2 ^ c.AW) :
    runMove c run (.memWrite a b) s = .next (setMem s (writeByte c s.mem a b)) := by
  rw [runMove, hostWrite, if_pos ha]

theorem runMove_memWrite_missing (b : Byte) (ha : 2 ^ c.AW ≤ a) :
    runMove c run (.memWrite a b) s = .fault (.noSuchAddress a) := by
  rw [runMove, hostWrite, if_neg (Nat.not_lt.mpr ha)]

theorem runMove_memRead (ha : a < 2 ^ c.AW) :
    runMove c run (.memRead a) s = .next (reply s (.byte a (readByte c s.mem a))) := by
  rw [runMove, hostRead, if_pos ha]

theorem runMove_memRead_missing (ha : 2 ^ c.AW ≤ a) :
    runMove c run (.memRead a) s = .fault (.noSuchAddress a) := by
  rw [runMove, hostRead, if_neg (Nat.not_lt.mpr ha)]

end ByteMoves

/-- Settles O9: the two byte moves at an address of MEM and the two beyond it; `writeByte` reaches one byte. -/
theorem hostReachesEveryByteOfMemory : Obligations.HostReachesEveryByteOfMemory := by
  intro s a b ms
  refine ⟨fun h ha => ⟨writeByte Config.machine s.mem a b, ?_, readByte_writeByte_self _ _ a b,
    fun a' ha' => readByte_writeByte_of_ne _ _ b ha'⟩, fun h ha => ?_, fun h ha => ?_, fun h ha => ?_⟩
  · rw [step_cons h, runMove_memWrite _ _ _ b ha, setMem]
  · rw [step_cons h, runMove_memRead _ _ _ ha, reply]
  · rw [step_cons h, runMove_memWrite_missing _ _ _ b ha]
  · rw [step_cons h, runMove_memRead_missing _ _ _ ha]

end Sys2Proof.Machine

/-! ## Calls (rule R104) -/

namespace Sys2Proof.Machine

/-- A register and the value the host stores in it. -/
abbrev RegStore := RegName × Nat

/-- The host move that makes a store (R21). -/
def RegStore.move (w : RegStore) : HostMove := .regWrite (numberOfReg w.1) w.2

/-- The register file after a list of stores, the first one first. -/
def storeRegs (c : Config) (r : Regs) (ws : List RegStore) : Regs := ws.foldl (fun r w => writeReg c r w.2 w.1) r

/-- The stores of a call, in the order of its descriptor writes (R104). -/
def descriptorStores (a : CallArgs) : List RegStore :=
  [(.keyPtr, a.key), (.ivPtr, a.iv), (.dinPtr, a.input), (.dinLen, a.inputLen), (.aadPtr, a.aad),
    (.aadLen, a.aadLen), (.doutPtr, a.output), (.tagPtr, a.tag), (.wsPtr, a.ws), (.wsLen, a.wsLen)]

theorem descriptorMoves_eq_map (a : CallArgs) : descriptorMoves a = (descriptorStores a).map RegStore.move := rfl

theorem descriptorStores_ne_cmd (a : CallArgs) : ∀ w ∈ descriptorStores a, w.1 ≠ .cmd := by simp [descriptorStores]

/-- Register writes that start no command are made one a step, and change nothing but the register file. -/
theorem run_regStores {ws : List RegStore} (hws : ∀ w ∈ ws, w.1 ≠ .cmd) {s : State} {ms : List HostMove}
    (h : s.moves = ws.map RegStore.move ++ ms) (k : Nat) :
    Host.Core.run core (ws.length + k) s
      = Host.Core.run core k { s with moves := ms, regs := storeRegs Config.machine s.regs ws } := by
  induction ws generalizing s with
  | nil =>
    obtain rfl : s.moves = ms := h
    rw [List.length_nil, Nat.zero_add]
    rfl
  | cons w ws ih =>
    obtain ⟨hw, hrest⟩ := List.forall_mem_cons.mp hws
    have hstep := step_regWrite h hw
    rw [List.length_cons, Nat.add_right_comm, run_succ_of_next (M := core) hstep, ih hrest rfl]
    rfl

/-- The register file a call leaves to its command: every descriptor register is stored once. -/
theorem storeRegs_descriptorStores (c : Config) (r : Regs) (a : CallArgs) :
    storeRegs c r (descriptorStores a)
      = { status := r.status, keyPtr := ptrOf c a.key, ivPtr := ptrOf c a.iv, aadPtr := ptrOf c a.aad,
          aadLen := lenOf a.aadLen, dinPtr := ptrOf c a.input, dinLen := lenOf a.inputLen,
          doutPtr := ptrOf c a.output, tagPtr := ptrOf c a.tag, wsPtr := ptrOf c a.ws, wsLen := lenOf a.wsLen } := rfl

theorem ptrOf_of_lt {c : Config} {v : Nat} (h : v < 2 ^ c.AW) : ptrOf c v = v := Nat.mod_eq_of_lt h

/-- A command reads and writes neither the host's moves nor its replies. -/
theorem runCommand_next_host {c : Config} {i : Instr} {s t : State} (h : runCommand c i s = .next t) :
    t.moves = s.moves ∧ t.replies = s.replies := by
  rcases runCommand_next h with ⟨e, -, rfl⟩ | ⟨-, rfl⟩
  · exact ⟨raiseErr_moves e s, raiseErr_replies e s⟩
  · exact ⟨bodyOf_moves c i s, bodyOf_replies c i s⟩

/-- The call's result is the OK bit of the byte that the last register read answered (R104). -/
theorem callResult_of_lastReply {s : State} {rs : List Reply} {n : Nat} {status : Byte}
    (h : s.replies = rs ++ [.reg n status.toNat]) : callResult s = okOf status := by
  rw [callResult, h, List.getLast?_concat]
  exact congrArg okOf (opcodeOf_toNat status)

/-- The two steps after the descriptor writes: the command, then the read of STATUS. -/
theorem run_commandThenStatus {i : Instr} {s t : State} {ms : List HostMove}
    (hmoves : s.moves = .regWrite 0x0 (encode i).toNat :: .regRead 0x1 :: ms)
    (hexec : exec i { s with moves := .regRead 0x1 :: ms } = .next t) :
    Host.Core.run core 2 s
      = .next { t with moves := ms, replies := s.replies ++ [.reg 0x1 t.regs.status.toNat] } := by
  have hdecode : decode (opcodeOf (encode i).toNat) = .ok i := by rw [opcodeOf_toNat, decode_encode]
  have hcmd : step s = .next t := by rw [step_command hmoves hdecode, hexec]
  rw [exec_eq_runCommand] at hexec
  obtain ⟨hwaiting, hreplies⟩ := runCommand_next_host hexec
  have hread := step_regRead (x := .status) hwaiting
  rw [run_succ_of_next (M := core) hcmd, run_succ_of_next (M := core) hread, hreplies]
  rfl

/-- Settles O13: ten register writes, then the command and the read of STATUS; arguments that fit are stored as they
are. -/
theorem callExpansionRunsItsCommand : Obligations.CallExpansionRunsItsCommand := by
  intro i a s t ms hmoves hkey hiv haad hinput houtput htag hws _ _ _ hexec
  rw [callMoves, descriptorMoves_eq_map, List.append_assoc] at hmoves
  have hrun := run_regStores (descriptorStores_ne_cmd a) hmoves 2
  have hcall : Host.Core.run core 12 s
      = .next { t with moves := ms, replies := s.replies ++ [.reg 0x1 t.regs.status.toNat] } := by
    refine hrun.trans (run_commandThenStatus rfl ?_)
    rw [storeRegs_descriptorStores, ptrOf_of_lt hkey, ptrOf_of_lt hiv, ptrOf_of_lt haad, ptrOf_of_lt hinput,
      ptrOf_of_lt houtput, ptrOf_of_lt htag, ptrOf_of_lt hws]
    exact hexec
  exact ⟨_, hcall, rfl, rfl, rfl, rfl, callResult_of_lastReply rfl⟩

end Sys2Proof.Machine

/-! ## The block primitives (rules R120 to R123) -/

namespace Sys2Proof.Machine

/-- SHR1 moves every bit one place to the right, across byte boundaries too (R121). -/
theorem getLsbD_byteOf_shr1 (v : Block) (j : Nat) {k : Nat} (hk : k < 8) :
    (byteOf (shr1 v).1 j).getLsbD k = v.getLsbD (8 * (15 - j) + (k + 1)) := by
  rw [byteOf_getLsbD _ _ _ hk, shr1, BitVec.getLsbD_ushiftRight]
  congr 1
  omega

/-- SHR1 drops the last bit of the block. -/
theorem shr1_dropped (v : Block) : (shr1 v).2 = (byteOf v 15).getLsbD 0 :=
  (byteOf_getLsbD v 15 0 (by decide)).symm

/-- A zero enters byte 0 of SHR1. -/
theorem byteOf_shr1_zero (v : Block) : byteOf (shr1 v).1 0 = byteOf v 0 >>> 1 := by
  refine BitVec.eq_of_getLsbD_eq fun k hk => ?_
  rw [getLsbD_byteOf_shr1 v 0 hk, BitVec.getLsbD_ushiftRight]
  by_cases hlast : k = 7
  · subst hlast
    rw [BitVec.getLsbD_of_ge _ _ (by decide), BitVec.getLsbD_of_ge _ _ (by decide)]
  · rw [byteOf_getLsbD _ _ _ (by omega), Nat.add_comm 1 k]

/-- Bit 0 of the byte before enters a later byte of SHR1 as its bit 7. -/
theorem byteOf_shr1_pos (v : Block) {j : Nat} (hpos : 1 ≤ j) (hj : j < 16) :
    byteOf (shr1 v).1 j = (byteOf v j >>> 1) ||| ((byteOf v (j - 1) &&& 1#8) <<< 7) := by
  refine BitVec.eq_of_getLsbD_eq fun k hk => ?_
  rw [getLsbD_byteOf_shr1 v j hk, BitVec.getLsbD_or, BitVec.getLsbD_ushiftRight, BitVec.getLsbD_shiftLeft]
  by_cases hlast : k = 7
  · subst hlast
    have hplace : 8 * (15 - j) + (7 + 1) = 8 * (15 - (j - 1)) + 0 := by omega
    rw [hplace, ← byteOf_getLsbD _ _ _ (by decide)]
    simp
  · rw [byteOf_getLsbD _ _ _ (by omega), Nat.add_comm 1 k]
    simp [show k < 7 by omega]

/-- Settles O42: XOR acts byte by byte, and SHR1 by the places of its bits. -/
theorem xorAndShiftByteByByte : Obligations.XorAndShiftByteByByte :=
  fun a b v => ⟨fun j _ => byteOf_xor a b j, shr1_dropped v, byteOf_shr1_zero v, fun _ => byteOf_shr1_pos v⟩

/-- The carry of INCR32 never reaches the twelve bytes left of the counter (R122). -/
theorem byteOf_incr32_left (b : Block) {j : Nat} (hj : j < 12) : byteOf (incr32 b) j = byteOf b j := by
  refine BitVec.eq_of_getLsbD_eq fun k hk => ?_
  rw [byteOf_getLsbD _ _ _ hk, byteOf_getLsbD _ _ _ hk, incr32, BitVec.getLsbD_append, if_neg (by omega),
    BitVec.getLsbD_extractLsb', decide_eq_true (by omega), Bool.true_and]
  congr 1
  omega

/-- INCR32 adds one to the counter, which wraps at `2^32` (R122). -/
theorem ctrOf_incr32 (b : Block) : ctrOf (incr32 b) = ctrOf b + 1#32 :=
  BitVec.extractLsb'_append_eq_right

/-- The counter of a block is its last four bytes, read big-endian (R61). -/
theorem ctrOf_toNat (x : Block) :
    (ctrOf x).toNat = (byteOf x 12).toNat * 2 ^ 24 + (byteOf x 13).toNat * 2 ^ 16 + (byteOf x 14).toNat * 2 ^ 8
      + (byteOf x 15).toNat := by
  rw [ctrOf, BitVec.extractLsb'_toNat]
  simp only [byteOf_toNat]
  omega

/-- Settles O43: INCR32 keeps the bytes left of the counter and adds one to the counter. -/
theorem counterIncrementKeepsTheLeftBytes : Obligations.CounterIncrementKeepsTheLeftBytes := by
  intro b
  refine ⟨fun j hj => byteOf_incr32_left b hj, ?_⟩
  rw [← ctrOf_toNat, ← ctrOf_toNat, ctrOf_incr32, BitVec.toNat_add]
  rfl

/-- Settles O44: the accumulator is zero exactly when all sixteen bytes agree (`tagsEqual_acc`). -/
theorem comparatorIsEquality : Obligations.ComparatorIsEquality := by
  intro a b
  calc tagsEqual a b = true ↔ ∀ j, j < 16 → byteOf a j = byteOf b j := by
        rw [tagsEqual, beq_iff_eq, tagsEqual_acc]
    _ ↔ a = b := ⟨block_ext, fun h _ _ => by rw [h]⟩

end Sys2Proof.Machine

/-! ## GFMUL by a monomial, its identity and its zero (rules R97, R140, R141) -/

namespace Sys2Proof.Machine

/-- The field element `t^k` of R140: the block whose only field bit is bit `k`. -/
def monomial (k : Nat) : Block := BitVec.twoPow 128 (127 - k)

theorem fbit_monomial {i k : Nat} (hi : i < 128) (hk : k < 128) : fbit (monomial k) i = decide (i = k) := by
  have hplace : 128 - (127 - k) - 1 = k := by omega
  rw [fbit_eq_getMsbD _ hi, monomial, BitVec.getMsbD_twoPow, decide_eq_true (by omega), Bool.true_and, hplace]

/-- Only the multiple at the monomial's own bit enters the sum. -/
theorem sumAfter_monomial {k n : Nat} (hk : k < 128) (hn : n ≤ 128) (y : Block) :
    sumAfter (monomial k) y n = if k < n then multipleAfter k y else 0#128 := by
  induction n with
  | zero => rfl
  | succ n ih =>
    rw [sumAfter, ih (by omega), fbit_monomial (by omega) hk]
    rcases Nat.lt_trichotomy k n with hlt | rfl | hgt
    · simp [hlt, Nat.ne_of_gt hlt, Nat.lt_succ_of_lt hlt]
    · simp
    · simp [Nat.not_lt.mpr (Nat.le_of_lt hgt), Nat.ne_of_lt hgt, Nat.not_lt.mpr hgt]

/-- Multiplying by `t^k` on the left is stepping the running multiple `k` times. -/
theorem gfmul_monomial {k : Nat} (hk : k < 128) (y : Block) : gfmul (monomial k) y = multipleAfter k y := by
  rw [gfmul_eq_sumAfter, sumAfter_monomial hk (Nat.le_refl 128), if_pos hk]

/-- Below `t^127` no bit is dropped, so the running multiple of `t^k` is `t^(k + 1)`. -/
theorem gfStepV_monomial {k : Nat} (hk : k < 127) : gfStepV (monomial k) = monomial (k + 1) := by
  have hkept : (shr1 (monomial k)).2 = false := by
    rw [shr1, monomial, BitVec.getLsbD_twoPow, decide_eq_false (by omega : ¬ 127 - k = 0), Bool.and_false]
  have hshift : (shr1 (monomial k)).1 = monomial (k + 1) := by
    refine BitVec.eq_of_getLsbD_eq fun i hi => ?_
    rw [shr1, monomial, monomial, BitVec.getLsbD_ushiftRight, BitVec.getLsbD_twoPow, BitVec.getLsbD_twoPow,
      decide_eq_true (by omega : 127 - k < 128), decide_eq_true (by omega : 127 - (k + 1) < 128)]
    exact congrArg (true && ·) (decide_eq_decide.mpr (by omega))
  rw [gfStepV, hkept, hshift]
  rfl

theorem multipleAfter_one {n : Nat} (hn : n < 128) : multipleAfter n (monomial 0) = monomial n := by
  induction n with
  | zero => rfl
  | succ n ih => rw [multipleAfter, ih (by omega), gfStepV_monomial (by omega)]

/-- Multiplying the identity by `x` collects the field bits of `x` one after the other. -/
theorem getMsbD_sumAfter_one (x : Block) {n i : Nat} (hn : n ≤ 128) (hi : i < 128) :
    (sumAfter x (monomial 0) n).getMsbD i = (decide (i < n) && x.getMsbD i) := by
  induction n with
  | zero => simp [sumAfter]
  | succ n ih =>
    have hadded : (if fbit x n then monomial n else 0#128).getMsbD i = (decide (i = n) && x.getMsbD n) := by
      rw [fbit_eq_getMsbD x (by omega)]
      cases x.getMsbD n with
      | false => simp
      | true => rw [if_pos rfl, ← fbit_eq_getMsbD _ hi, fbit_monomial hi (by omega), Bool.and_true]
    rw [sumAfter, multipleAfter_one (by omega), BitVec.getMsbD_xor, ih (by omega), hadded]
    rcases Nat.lt_trichotomy i n with hlt | rfl | hgt
    · simp [hlt, Nat.ne_of_lt hlt, Nat.lt_succ_of_lt hlt]
    · simp
    · simp [Nat.not_lt.mpr (Nat.le_of_lt hgt), Nat.ne_of_gt hgt, Nat.not_lt.mpr hgt]

theorem one_gfmul (y : Block) : gfmul (monomial 0) y = y := gfmul_monomial (by decide) y

theorem gfmul_one (x : Block) : gfmul x (monomial 0) = x := by
  refine BitVec.eq_of_getMsbD_eq fun i hi => ?_
  rw [gfmul_eq_sumAfter, getMsbD_sumAfter_one x (Nat.le_refl 128) hi, decide_eq_true hi, Bool.true_and]

theorem fbit_zero (i : Nat) : fbit 0#128 i = false := by simp [fbit, byteOf]

theorem sumAfter_zero_left (y : Block) (n : Nat) : sumAfter 0#128 y n = 0#128 := by
  induction n with
  | zero => rfl
  | succ n ih => simp [sumAfter, ih, fbit_zero]

theorem multipleAfter_zero (n : Nat) : multipleAfter n 0#128 = 0#128 := by
  induction n with
  | zero => rfl
  | succ n ih => rw [multipleAfter, ih]; rfl

theorem sumAfter_zero_right (x : Block) (n : Nat) : sumAfter x 0#128 n = 0#128 := by
  induction n with
  | zero => rfl
  | succ n ih => rw [sumAfter, ih, multipleAfter_zero, ite_self, BitVec.xor_zero]

theorem zero_gfmul (y : Block) : gfmul 0#128 y = 0#128 := by rw [gfmul_eq_sumAfter, sumAfter_zero_left]

theorem gfmul_zero (x : Block) : gfmul x 0#128 = 0#128 := by rw [gfmul_eq_sumAfter, sumAfter_zero_right]

/-- Multiplying by `t` is one step of the running multiple. -/
theorem gfmul_t (y : Block) : gfmul (monomial 1) y = gfStepV y := gfmul_monomial (by decide) y

/-- Settles O46: the blocks written out are `monomial 1` and `monomial 0`, and the last part is one step on `t^127`,
whose only bit is the one dropped. -/
theorem multiplierIdentityZeroAndReduction : Obligations.MultiplierIdentityZeroAndReduction :=
  ⟨gfmul_t, one_gfmul, gfmul_one, zero_gfmul, gfmul_zero, gfmul_t 1#128⟩

end Sys2Proof.Machine

/-! ## GHASH_FOLD over byte strings (rules R143, R144) -/

namespace Sys2Proof.Machine

theorem blockCount_roundUp16 (n : Nat) : blockCount (roundUp16 n) = blockCount n := by
  rw [roundUp16, blockCount]
  omega

theorem length_padTo16 (bs : Bytes) : (padTo16 bs).length = roundUp16 bs.length := by
  rw [padTo16, List.length_append, List.length_replicate, roundUp16, blockCount]
  omega

/-- Zero bytes after a string read like the end of the string. -/
theorem getD_append_zeros (bs : Bytes) (n i : Nat) : (bs ++ List.replicate n 0#8).getD i 0#8 = bs.getD i 0#8 := by
  rcases Nat.lt_or_ge i bs.length with hin | hout
  · exact List.getD_append _ _ _ _ hin
  · rw [List.getD_append_right _ _ _ _ hout, List.getD_eq_default _ _ hout]
    exact List.getElem?_getD_replicate_default_eq 0#8 n _

/-- The blocks of a string depend only on what its bytes read as, zero beyond its end. -/
theorem blocksOf_congr (k : Nat) {bs bs' : Bytes} (h : ∀ j, bs.getD j 0#8 = bs'.getD j 0#8) :
    blocksOf k bs = blocksOf k bs' := by
  refine List.ext_getElem (by simp) fun i h1 h2 => ?_
  rw [getElem_blocksOf, getElem_blocksOf]
  refine blockOfBytes_congr fun j hj => ?_
  simpa [List.getElem?_take, hj] using h (16 * i + j)

/-- A byte string and its zero-padded form fold alike (R143). -/
theorem ghashFold_padTo16 (y : Block) (a : Bytes) (h : Block) : ghashFold y (padTo16 a) h = ghashFold y a h := by
  rw [ghashFold, length_padTo16, blockCount_roundUp16, padTo16, blocksOf_congr _ (getD_append_zeros a _), ghashFold]

/-- Folding whole blocks and then more is folding the parts in turn (R143). -/
theorem ghashFold_append (y : Block) {a : Bytes} (ha : a.length % 16 = 0) (b : Bytes) (h : Block) :
    ghashFold y (a ++ b) h = ghashFold (ghashFold y a h) b h := by
  have hwhole : a.length = 16 * blockCount a.length := by rw [blockCount]; omega
  have hcount : blockCount (a ++ b).length = blockCount a.length + blockCount b.length := by
    rw [List.length_append, blockCount, blockCount, blockCount]
    omega
  rw [ghashFold, hcount, blocksOf_append _ _ _ _ hwhole, List.foldl_append, ghashFold, ghashFold]

/-- Under the zero subkey each fold step returns zero. -/
theorem ghash_zero_subkey (a : Bytes) : ghash a 0#128 = 0#128 :=
  List.foldl_fixed' (fun _ => gfmul_zero _) _

/-- Settles O49: the laws of GHASH_FOLD one by one. -/
theorem hashThreadsItsAccumulator : Obligations.HashThreadsItsAccumulator := fun y h x a b =>
  ⟨ghashFold_block y x h, ghashFold_nil y h, ghashFold_padTo16 y a h, fun ha => ghashFold_append y ha b h, rfl,
    ghash_zero_subkey a⟩

end Sys2Proof.Machine

/-! ## Counter mode byte by byte (rules R160, R161) -/

namespace Sys2Proof.Machine

/-- The full blocks leave the counter block advanced once per block. -/
theorem ctrBlocks_snd (E : Block → Block → Block) (key : Block) (q : Nat) (cb : Block) (input : Bytes) :
    (ctrBlocks E key q cb input).2 = advance q cb := by
  induction q generalizing cb input with
  | zero => rfl
  | succ q ih => rw [ctrBlocks, ih, advance]

/-- A byte of the full blocks is the input byte XOR the keystream byte of its block. -/
theorem getD_ctrBlocks (E : Block → Block → Block) (key : Block) {q j : Nat} (cb : Block) (input : Bytes)
    (hj : j < 16 * q) :
    (ctrBlocks E key q cb input).1.getD j 0#8
      = input.getD j 0#8 ^^^ byteOf (E (advance (j / 16) cb) key) (j % 16) := by
  induction q generalizing cb input j with
  | zero => omega
  | succ q ih =>
    rw [ctrBlocks]
    rcases Nat.lt_or_ge j 16 with hfirst | hlater
    · have hinput : (input.take 16).getD j 0#8 = input.getD j 0#8 := by simp [hfirst]
      rw [List.getD_append _ _ _ _ (by simpa using hfirst), getD_blockBytes _ hfirst, xor128, byteOf_xor,
        byteOf_blockOfBytes _ hfirst, hinput, Nat.div_eq_of_lt hfirst, Nat.mod_eq_of_lt hfirst, advance]
    · obtain ⟨i, rfl⟩ := Nat.exists_eq_add_of_le hlater
      have hinput : (input.drop 16).getD i 0#8 = input.getD (16 + i) 0#8 := by simp
      rw [List.getD_append_right _ _ _ _ (by simp), length_blockBytes, Nat.add_sub_cancel_left, ih _ _ (by omega),
        hinput, Nat.add_mod_left, Nat.add_div_left _ (by decide), advance]

/-- A byte of the tail is XORed with the byte of the keystream block at the same place. -/
theorem getD_xorTail (tail : Bytes) (ks : Block) {i : Nat} (hi : i < tail.length) (hblock : i < 16) :
    (xorTail tail ks).getD i 0#8 = tail.getD i 0#8 ^^^ byteOf ks i := by
  have hlen : i < (xorTail tail ks).length := by simp [xorTail, hi, hblock]
  rw [List.getD_eq_getElem _ _ hlen, List.getD_eq_getElem _ _ hi]
  simp only [xorTail, List.getElem_zipWith, getElem_blockBytes]

/-- Below the last multiple of 16, the output of CTR is its full blocks. -/
theorem getD_ctr_full (E : Block → Block → Block) (key icb : Block) (input : Bytes) {j : Nat}
    (hfull : j < 16 * (input.length / 16)) :
    (ctr E key icb input).getD j 0#8 = (ctrBlocks E key (input.length / 16) icb input).1.getD j 0#8 := by
  simp only [ctr]
  split
  · rfl
  · exact List.getD_append _ _ _ _ (by simpa using hfull)

/-- From the last multiple of 16 on, the output of CTR is the tail under the counter as it then stands. -/
theorem getD_ctr_tail (E : Block → Block → Block) (key icb : Block) (input : Bytes) {i : Nat}
    (hi : 16 * (input.length / 16) + i < input.length) :
    (ctr E key icb input).getD (16 * (input.length / 16) + i) 0#8
      = (xorTail (input.drop (16 * (input.length / 16))) (E (advance (input.length / 16) icb) key)).getD i 0#8 := by
  simp only [ctr]
  rw [if_neg (by omega), List.getD_append_right _ _ _ _ (by simp), length_ctrBlocks, Nat.add_sub_cancel_left,
    ctrBlocks_snd]

/-- R160: a byte of CTR's output is the input byte XOR the keystream byte of its block, in the tail too. -/
theorem getD_ctr (E : Block → Block → Block) (key icb : Block) (input : Bytes) {j : Nat} (hj : j < input.length) :
    (ctr E key icb input).getD j 0#8
      = input.getD j 0#8 ^^^ byteOf (E (advance (j / 16) icb) key) (j % 16) := by
  rcases Nat.lt_or_ge j (16 * (input.length / 16)) with hfull | htail
  · rw [getD_ctr_full E key icb input hfull, getD_ctrBlocks E key icb input hfull]
  · obtain ⟨i, rfl⟩ := Nat.exists_eq_add_of_le htail
    have hblock : i < 16 := by omega
    have hinput : (input.drop (16 * (input.length / 16))).getD i 0#8
        = input.getD (16 * (input.length / 16) + i) 0#8 := by simp
    rw [getD_ctr_tail E key icb input hj, getD_xorTail _ _ (by simp; omega) hblock, hinput,
      Nat.mul_add_div (by decide), Nat.div_eq_of_lt hblock, Nat.add_zero, Nat.mul_add_mod, Nat.mod_eq_of_lt hblock]

/-- Settles O54: the length and, full blocks and tail apart, the bytes of CTR. -/
theorem counterModeByteByByte : Obligations.CounterModeByteByByte :=
  fun E key icb input => ⟨length_ctr E key icb input, fun _ => getD_ctr E key icb input⟩

end Sys2Proof.Machine

/-! ## The length block and the tag (rules R96, R98, R182 to R184) -/

namespace Sys2Proof.Machine

/-- The eight bytes of the length block that belong to one bit length: six zero bytes, then its two bytes (R182). -/
def lengthField (n : Nat) : Bytes := List.replicate 6 0#8 ++ bitLengthBytes n

@[simp] theorem length_lengthField (n : Nat) : (lengthField n).length = 8 := rfl

theorem lenBlock_eq_fields (a c : Nat) : lenBlock a c = blockOfBytes (lengthField a ++ lengthField c) := rfl

theorem getD_lengthField_zero (n : Nat) {i : Nat} (hi : i < 6) : (lengthField n).getD i 0#8 = 0#8 := by
  rw [lengthField, List.getD_append _ _ _ _ (by simpa using hi), List.getD_replicate _ hi]

/-- The high byte of the 16 bits kept of a bit length is below `2^8`, so no part of it is lost (R96). -/
theorem getD_lengthField_high (n : Nat) : ((lengthField n).getD 6 0#8).toNat = 8 * n % 2 ^ 16 / 2 ^ 8 :=
  Nat.mod_eq_of_lt (by omega)

theorem getD_lengthField_low (n : Nat) : ((lengthField n).getD 7 0#8).toNat = 8 * n % 2 ^ 16 % 2 ^ 8 := rfl

/-- Bytes 0 to 7 of the length block are the field of the AAD. -/
theorem byteOf_lenBlock_left (a c : Nat) {i : Nat} (hi : i < 8) :
    byteOf (lenBlock a c) i = (lengthField a).getD i 0#8 := by
  rw [lenBlock_eq_fields, byteOf_blockOfBytes _ (by omega), List.getD_append _ _ _ _ (by simpa using hi)]

/-- Bytes 8 to 15 of the length block are the field of the ciphertext. -/
theorem byteOf_lenBlock_right (a c : Nat) {i : Nat} (hi : i < 8) :
    byteOf (lenBlock a c) (8 + i) = (lengthField c).getD i 0#8 := by
  rw [lenBlock_eq_fields, byteOf_blockOfBytes _ (by omega), List.getD_append_right _ _ _ _ (by simp),
    length_lengthField, Nat.add_sub_cancel_left]

/-- A byte of the length block outside the four of the two bit lengths is one of the six zero bytes of a field. -/
theorem byteOf_lenBlock_zero (a c : Nat) {j : Nat} (hj : j < 16) (hother : j ∉ [6, 7, 14, 15]) :
    byteOf (lenBlock a c) j = 0#8 := by
  simp only [List.mem_cons, List.not_mem_nil, or_false, not_or] at hother
  rcases Nat.lt_or_ge j 8 with hleft | hright
  · rw [byteOf_lenBlock_left a c hleft, getD_lengthField_zero a (by omega)]
  · obtain ⟨i, rfl⟩ := Nat.exists_eq_add_of_le hright
    rw [byteOf_lenBlock_right a c (by omega), getD_lengthField_zero c (by omega)]

/-- Settles O53: the two fields, each with its high and its low byte, and the zero bytes around them. -/
theorem lengthBlockFormat : Obligations.LengthBlockFormat := by
  intro a c
  refine ⟨?_, ?_, ?_, ?_, fun j => byteOf_lenBlock_zero a c⟩
  · rw [byteOf_lenBlock_left a c (by decide), getD_lengthField_high]
  · rw [byteOf_lenBlock_left a c (by decide), getD_lengthField_low]
  · rw [byteOf_lenBlock_right a c (i := 6) (by decide), getD_lengthField_high]
  · rw [byteOf_lenBlock_right a c (i := 7) (by decide), getD_lengthField_low]

theorem length_padTo16_mod (bs : Bytes) : (padTo16 bs).length % 16 = 0 := by
  rw [length_padTo16, roundUp16, Nat.mul_mod_right]

/-- Settles O50: padding makes the AAD and the ciphertext whole blocks, so folding the concatenation is folding its
parts in turn, and each padded part folds like the part itself. -/
theorem hashInputIsThePaddedConcatenation : Obligations.HashInputIsThePaddedConcatenation := by
  intro h aad ct
  have hinputs : (padTo16 aad ++ padTo16 ct).length % 16 = 0 := by
    rw [List.length_append, Nat.add_mod, length_padTo16_mod, length_padTo16_mod]
  rw [ghash, ghashFold_append _ hinputs, ghashFold_append _ (length_padTo16_mod aad), ghashFold_padTo16,
    ghashFold_padTo16, tagHash]

/-- The padded variant on one block is the XOR of that block with the encrypted counter block (R162). -/
theorem ctrp_singleton (E : Block → Block → Block) (key cb x : Block) :
    ctrp E key cb [x] = [xor128 x (E cb key)] := rfl

/-- Settles O51. -/
theorem tagIsHashXorEncryptedCounter : Obligations.TagIsHashXorEncryptedCounter := by
  intro E key h aad ct j0
  rw [gentag, ctrp_singleton, List.headD_cons]

end Sys2Proof.Machine

/-! ## The commands complete (rules R202 to R208, R256, R259) -/

namespace Sys2Proof.Machine

theorem opcodeOf_ne {v : Nat} {b : Byte} (h : v % 2 ^ 8 ≠ b.toNat) : opcodeOf v ≠ b := fun he =>
  h (by rw [← he, opcodeOf, BitVec.toNat_ofNat])

/-- Settles O5: the opcode is none of the three, so the write completes with IllegalCommand. -/
theorem illegalCommandChangesOnlyStatus : Obligations.IllegalCommandChangesOnlyStatus := by
  intro s v ms hmoves henc hencp hdec
  exact step_illegal hmoves (decode_illegal (opcodeOf_ne henc) (opcodeOf_ne hencp) (opcodeOf_ne hdec))

theorem bodyOf_encrypt_regs (c : Config) {i : Instr} (s : State) (hi : i ≠ .gcmDec) :
    (bodyOf c i s).regs = { s.regs with status := 0x03#8 } := by
  cases i with
  | gcmEnc | gcmEncp => rfl
  | gcmDec => exact absurd rfl hi

/-- Everything a ready encrypt command does: STATUS 0x03, the ciphertext, its tag, a zero workspace, and nothing
else. -/
theorem encrypt_completes {c : Config} {i : Instr} {s : State} (hc : c.wellFormed = true) (hi : i ≠ .gcmDec)
    (hready : Ready c i s.regs) :
    ∃ t : State, runCommand c i s = .next t
      ∧ t.regs = { s.regs with status := 0x03#8 } ∧ t.moves = s.moves ∧ t.replies = s.replies
      ∧ outputIn c t = cipherOf c i s
      ∧ tagIn c t = blockBytes (tagFor c s (outputIn c t))
      ∧ WorkspaceZero c t
      ∧ ∀ a, ¬ inRegion s.regs.doutPtr s.regs.dinLen.toNat a → ¬ inRegion s.regs.tagPtr 16 a →
          ¬ inRegion s.regs.wsPtr s.regs.wsLen.toNat a → readByte c t.mem a = readByte c s.mem a := by
  obtain ⟨hout, htag, hzero, hframe⟩ := bodyOf_encrypt_mem hc hi hready
  exact ⟨bodyOf c i s, runCommand_of_ready hready, bodyOf_encrypt_regs c s hi, bodyOf_moves c i s,
    bodyOf_replies c i s, hout, by rw [htag, hout], hzero, hframe⟩

/-- Settles O23. -/
theorem gcmEncCompletes : Obligations.GcmEncCompletes := by
  intro s hready
  rw [exec_eq_runCommand]
  exact encrypt_completes machine_wellFormed (by decide) hready

/-- Settles O24. -/
theorem gcmEncpCompletes : Obligations.GcmEncpCompletes := by
  intro s hready
  rw [exec_eq_runCommand]
  exact encrypt_completes machine_wellFormed (by decide) hready

/-- The comparator of GCM.DEC accepts exactly the bytes of the recomputed tag (R123, R206). -/
theorem tagsEqual_supplied_iff (c : Config) (s : State) (x : Block) :
    tagsEqual x (blockOfBytes (tagIn c s)) = true ↔ tagIn c s = blockBytes x := by
  rw [comparatorIsEquality]
  constructor
  · rintro rfl
    exact (blockBytes_blockOfBytes (length_readBytes c s.mem s.regs.tagPtr 16)).symm
  · intro h
    rw [h, blockOfBytes_blockBytes]

/-- What the body of a ready GCM.DEC leaves in MEM. -/
theorem bodyOf_decrypt_mem {c : Config} {s : State} (hc : c.wellFormed = true) (hready : Ready c .gcmDec s.regs) :
    outputIn c (bodyOf c .gcmDec s) = ctrpBytes c.E (keyIn c s) (incr32 (counterIn c s)) (dataIn c s)
      ∧ WorkspaceZero c (bodyOf c .gcmDec s)
      ∧ ∀ a, ¬ inRegion s.regs.doutPtr s.regs.dinLen.toNat a → ¬ inRegion s.regs.wsPtr s.regs.wsLen.toNat a →
          readByte c (bodyOf c .gcmDec s).mem a = readByte c s.mem a := by
  have hmin : 0xA0 ≤ wsMin c .gcmDec := (wsMin_of_wellFormed hc).2.2
  exact decryptBody_mem hready (hmin.trans hready.1.1)

/-- Everything a ready GCM.DEC does: STATUS by the comparison of the tags, the plaintext either way, a zero workspace,
and nothing else. -/
theorem decrypt_completes {c : Config} {s : State} (hc : c.wellFormed = true) (hready : Ready c .gcmDec s.regs) :
    ∃ t : State, runCommand c .gcmDec s = .next t
      ∧ (tagIn c s = blockBytes (tagFor c s (dataIn c s)) → t.regs = { s.regs with status := 0x03#8 })
      ∧ (tagIn c s ≠ blockBytes (tagFor c s (dataIn c s)) → t.regs = { s.regs with status := 0x61#8 })
      ∧ t.moves = s.moves ∧ t.replies = s.replies
      ∧ outputIn c t = ctrpBytes c.E (keyIn c s) (incr32 (counterIn c s)) (dataIn c s)
      ∧ WorkspaceZero c t
      ∧ ∀ a, ¬ inRegion s.regs.doutPtr s.regs.dinLen.toNat a → ¬ inRegion s.regs.wsPtr s.regs.wsLen.toNat a →
          readByte c t.mem a = readByte c s.mem a := by
  obtain ⟨hout, hzero, hframe⟩ := bodyOf_decrypt_mem hc hready
  refine ⟨bodyOf c .gcmDec s, runCommand_of_ready hready, fun htag => ?_, fun htag => ?_, bodyOf_moves c .gcmDec s,
    bodyOf_replies c .gcmDec s, hout, hzero, hframe⟩
  · rw [bodyOf, decryptBody_regs hready, if_pos ((tagsEqual_supplied_iff c s _).mpr htag)]
  · rw [bodyOf, decryptBody_regs hready, if_neg (mt (tagsEqual_supplied_iff c s _).mp htag)]

/-- Settles O25. -/
theorem gcmDecCompletes : Obligations.GcmDecCompletes := by
  intro s hready
  rw [exec_eq_runCommand]
  exact decrypt_completes machine_wellFormed hready

/-! ### No data: GMAC (R205) -/

theorem not_inRegion_zero (p a : Nat) : ¬ inRegion p 0 a := fun h => absurd h.1 (Nat.not_le.mpr h.2)

/-- Without data a command is as ready whatever DIN_PTR holds: an empty region is valid and meets nothing (R26, R66,
R67). -/
theorem ready_withDinPtr {c : Config} {i : Instr} {r : Regs} (h : Ready c i r) (hlen : r.dinLen.toNat = 0) (p : Nat) :
    Ready c i { r with dinPtr := p } := by
  obtain ⟨hmet, ⟨hkey, hiv, haad, -, hdout, htag, hws⟩, hwritten, hread⟩ := h
  have hvalid : ValidSet c p r.dinLen.toNat := fun a ha => absurd (hlen ▸ ha) (not_inRegion_zero p a)
  have hsame : writtenExtents i { r with dinPtr := p } = writtenExtents i r := by cases i <;> rfl
  have hextents : ∀ v ∈ readExtents i { r with dinPtr := p }, v ∈ readExtents i r ∨ v.2 = 0 := by
    cases i <;> simp [readExtents, hlen]
  refine ⟨hmet, ⟨hkey, hiv, haad, hvalid, hdout, htag, hws⟩, by rwa [hsame], fun u hu v hv => ?_⟩
  rcases hextents v hv with hold | hempty
  · exact hread u (hsame ▸ hu) v hold
  · exact fun a ha => not_inRegion_zero v.1 a (hempty ▸ ha.2)

/-- Settles O26: a completion whose ciphertext is empty. -/
theorem gmacWritesATagAndNoCiphertext : Obligations.GmacWritesATagAndNoCiphertext := by
  intro i s p hi hready hlen
  have hready' := ready_withDinPtr hready hlen p
  rw [exec_eq_runCommand]
  obtain ⟨t, hrun, hregs, -, -, -, htag, -, hframe⟩ := encrypt_completes
    (s := { s with regs := { s.regs with dinPtr := p } }) machine_wellFormed hi hready'
  have hempty : outputIn Config.machine t = [] := by
    rw [outputIn, hregs]
    simp only [hlen, readBytes_zero]
  rw [hempty] at htag
  refine ⟨t, hrun, by rw [hregs], htag, fun a htagRegion hws => hframe a ?_ htagRegion hws⟩
  simp only [hlen]
  exact not_inRegion_zero s.regs.doutPtr a

end Sys2Proof.Machine

/-! ## What the commands leave unchanged (rules R203, R209, R256) -/

namespace Sys2Proof.Machine

/-- Settles O27: a precondition error changes STATUS alone, and a body that runs completes. -/
theorem encryptFrame : Obligations.EncryptFrame := by
  intro i s t hi hexec
  rw [exec_eq_runCommand] at hexec
  rcases runCommand_next hexec with ⟨e, -, rfl⟩ | ⟨hready, rfl⟩
  · exact ⟨rfl, rfl, rfl, fun _ _ _ _ => rfl, fun _ => rfl⟩
  · have hregs := bodyOf_encrypt_regs Config.machine s hi
    obtain ⟨-, -, -, hframe⟩ := bodyOf_encrypt_mem machine_wellFormed hi hready
    exact ⟨sameDescriptors_of_status hregs, bodyOf_moves _ i s, bodyOf_replies _ i s, hframe,
      fun hne => absurd (by rw [hregs]) hne⟩

/-- Settles O28: a precondition error changes STATUS alone, and a body that runs ends with 0x03 or 0x61. -/
theorem decryptFrame : Obligations.DecryptFrame := by
  intro s t hexec
  rw [exec_eq_runCommand] at hexec
  rcases runCommand_next hexec with ⟨e, -, rfl⟩ | ⟨hready, rfl⟩
  · exact ⟨rfl, rfl, rfl, fun _ _ _ => rfl, fun _ _ => rfl⟩
  · obtain ⟨v, hv, hregs⟩ := bodyOf_regs hready
    obtain ⟨-, -, hframe⟩ := bodyOf_decrypt_mem machine_wellFormed hready
    refine ⟨sameDescriptors_of_status hregs, bodyOf_moves _ .gcmDec s, bodyOf_replies _ .gcmDec s, hframe,
      fun hok hfail => ?_⟩
    rw [hregs] at hok hfail
    rcases hv with rfl | ⟨rfl, -⟩
    · exact absurd rfl hok
    · exact absurd rfl hfail

/-- The whole reserved extent of GCM.ENC's data output is apart from the tag and the workspace (R67, R203). -/
theorem ready_gcmEnc_reserved {c : Config} {r : Regs} (h : Ready c .gcmEnc r) :
    DisjointSets r.doutPtr (roundUp16 r.dinLen.toNat) r.tagPtr 16
      ∧ DisjointSets r.doutPtr (roundUp16 r.dinLen.toNat) r.wsPtr r.wsLen.toNat := by
  obtain ⟨-, -, hwritten, -⟩ := h
  simp only [writtenExtents, List.pairwise_cons, List.mem_cons, List.not_mem_nil, or_false, forall_eq_or_imp,
    forall_eq] at hwritten
  obtain ⟨⟨hws, htag⟩, -⟩ := hwritten
  exact ⟨htag, hws⟩

/-- Settles O29: a reserved byte is outside the bytes written to the data output, and outside the tag and the workspace,
which the reserved extent does not meet. -/
theorem reservedCiphertextBytesAreNotWritten : Obligations.ReservedCiphertextBytesAreNotWritten := by
  intro s hready
  rw [exec_eq_runCommand]
  obtain ⟨t, hrun, -, -, -, -, -, -, hframe⟩ := encrypt_completes machine_wellFormed (by decide) hready
  obtain ⟨htag, hws⟩ := ready_gcmEnc_reserved hready
  refine ⟨t, hrun, fun j hlow hhigh => ?_⟩
  have hreserved : inRegion s.regs.doutPtr (roundUp16 s.regs.dinLen.toNat) (s.regs.doutPtr + j) :=
    ⟨Nat.le_add_right _ _, Nat.add_lt_add_left hhigh _⟩
  exact hframe _ (fun h => absurd (Nat.lt_of_add_lt_add_left h.2) (Nat.not_lt.mpr hlow))
    (fun h => htag _ ⟨hreserved, h⟩) (fun h => hws _ ⟨hreserved, h⟩)

end Sys2Proof.Machine

/-! ## Results are a function of the inputs (rules R41, R209) -/

namespace Sys2Proof.Machine

/-- Two states hold the same key, initial counter block and AAD, which are what a tag depends on beside the
ciphertext (R184). -/
def SameTagInputs (c : Config) (s s' : State) : Prop :=
  keyIn c s' = keyIn c s ∧ counterIn c s' = counterIn c s ∧ aadIn c s' = aadIn c s

theorem sameTagInputs_of_reads {c : Config} {s s' : State} (hkey : keyIn c s' = keyIn c s)
    (hiv : readBytes c s'.mem s'.regs.ivPtr 12 = readBytes c s.mem s.regs.ivPtr 12) (haad : aadIn c s' = aadIn c s) :
    SameTagInputs c s s' := ⟨hkey, congrArg makeJ0 hiv, haad⟩

theorem tagFor_congr {c : Config} {s s' : State} (h : SameTagInputs c s s') (ct : Bytes) :
    tagFor c s' ct = tagFor c s ct := by
  obtain ⟨hkey, hcounter, haad⟩ := h
  rw [tagFor, tagFor, hkey, hcounter, haad]

theorem cipherOf_congr {c : Config} {s s' : State} (h : SameTagInputs c s s') (hdata : dataIn c s' = dataIn c s)
    (i : Instr) : cipherOf c i s' = cipherOf c i s := by
  obtain ⟨hkey, hcounter, -⟩ := h
  cases i <;> rw [cipherOf, cipherOf, hkey, hcounter, hdata]

/-- Two states hold the same data output, the same bytes in the tag region and the same workspace. -/
def SameOutputs (c : Config) (t t' : State) : Prop :=
  outputIn c t' = outputIn c t ∧ tagIn c t' = tagIn c t
    ∧ ∀ a, inRegion t.regs.wsPtr t.regs.wsLen.toNat a → readByte c t'.mem a = readByte c t.mem a

/-- Two zero workspaces at one place hold the same bytes. -/
theorem readByte_eq_of_workspaceZero {c : Config} {t t' : State} (hregs : t'.regs = t.regs) (h : WorkspaceZero c t)
    (h' : WorkspaceZero c t') {a : Nat} (ha : inRegion t.regs.wsPtr t.regs.wsLen.toNat a) :
    readByte c t'.mem a = readByte c t.mem a := by
  obtain ⟨k, rfl⟩ := Nat.exists_eq_add_of_le ha.1
  have hk := Nat.lt_of_add_lt_add_left ha.2
  rw [WorkspaceZero, hregs] at h'
  rw [h k hk, h' k hk]

/-- Ready encrypt commands on the same inputs give the same register file and the same outputs. -/
theorem encrypt_congr {c : Config} {i : Instr} {s s' : State} (hc : c.wellFormed = true) (hi : i ≠ .gcmDec)
    (hready : Ready c i s.regs) (hregs : s'.regs = s.regs) (hsame : SameTagInputs c s s')
    (hdata : dataIn c s' = dataIn c s) :
    ∃ t t' : State, runCommand c i s = .next t ∧ runCommand c i s' = .next t' ∧ t'.regs = t.regs
      ∧ SameOutputs c t t' := by
  obtain ⟨t, hrun, htregs, -, -, hout, htag, hzero, -⟩ := encrypt_completes hc hi hready
  obtain ⟨t', hrun', htregs', -, -, hout', htag', hzero', -⟩ := encrypt_completes (s := s') hc hi (hregs ▸ hready)
  have hfile : t'.regs = t.regs := by rw [htregs', htregs, hregs]
  have houtput : outputIn c t' = outputIn c t := by rw [hout', hout, cipherOf_congr hsame hdata]
  have htags : tagIn c t' = tagIn c t := by rw [htag', htag, houtput, tagFor_congr hsame]
  exact ⟨t, t', hrun, hrun', hfile, houtput, htags, fun a => readByte_eq_of_workspaceZero hfile hzero hzero'⟩

/-- GCM.DEC leaves the supplied tag as it was: its region meets neither the plaintext nor the workspace (R67, R206). -/
theorem decrypt_tagIn {c : Config} {s t : State} (hready : Ready c .gcmDec s.regs)
    (hptr : t.regs.tagPtr = s.regs.tagPtr)
    (hframe : ∀ a, ¬ inRegion s.regs.doutPtr s.regs.dinLen.toNat a →
      ¬ inRegion s.regs.wsPtr s.regs.wsLen.toNat a → readByte c t.mem a = readByte c s.mem a) :
    tagIn c t = tagIn c s := by
  obtain ⟨-, -, -, hread⟩ := hready
  simp only [writtenExtents, readExtents, List.mem_cons, List.not_mem_nil, or_false, forall_eq_or_imp,
    forall_eq] at hread
  obtain ⟨⟨-, -, -, -, hdout⟩, -, -, -, -, hws⟩ := hread
  rw [tagIn, tagIn, hptr]
  exact readBytes_congr fun a ha => hframe a (fun h => hdout a ⟨h, ha⟩) fun h => hws a ⟨h, ha⟩

/-- Ready GCM.DEC commands on the same inputs, the tag among them, give the same register file and the same outputs. -/
theorem decrypt_congr {c : Config} {s s' : State} (hc : c.wellFormed = true) (hready : Ready c .gcmDec s.regs)
    (hregs : s'.regs = s.regs) (hsame : SameTagInputs c s s') (hdata : dataIn c s' = dataIn c s)
    (htag : tagIn c s' = tagIn c s) :
    ∃ t t' : State, runCommand c .gcmDec s = .next t ∧ runCommand c .gcmDec s' = .next t' ∧ t'.regs = t.regs
      ∧ SameOutputs c t t' := by
  have hready' : Ready c .gcmDec s'.regs := hregs ▸ hready
  obtain ⟨t, hrun, hok, hfail, -, -, hout, hzero, hframe⟩ := decrypt_completes hc hready
  obtain ⟨t', hrun', hok', hfail', -, -, hout', hzero', hframe'⟩ := decrypt_completes hc hready'
  rw [htag, hdata, tagFor_congr hsame] at hok' hfail'
  obtain ⟨x, htregs, htregs'⟩ :
      ∃ x : Byte, t.regs = { s.regs with status := x } ∧ t'.regs = { s'.regs with status := x } := by
    by_cases hverdict : tagIn c s = blockBytes (tagFor c s (dataIn c s))
    · exact ⟨_, hok hverdict, hok' hverdict⟩
    · exact ⟨_, hfail hverdict, hfail' hverdict⟩
  have hfile : t'.regs = t.regs := by rw [htregs', htregs, hregs]
  have houtput : outputIn c t' = outputIn c t := hout'.trans ((cipherOf_congr hsame hdata .gcmDec).trans hout.symm)
  have htags : tagIn c t' = tagIn c t := by
    rw [decrypt_tagIn hready' (by rw [htregs']) hframe', decrypt_tagIn hready (by rw [htregs]) hframe, htag]
  exact ⟨t, t', hrun, hrun', hfile, houtput, htags, fun a => readByte_eq_of_workspaceZero hfile hzero hzero'⟩

theorem runCommand_of_precheck {c : Config} {i : Instr} {s : State} {e : ErrCode} (h : precheck c i s.regs = some e) :
    runCommand c i s = .next (raiseErr e s) := by rw [runCommand_eq_guarded, guarded, h]

/-- A command that answers gives, on the same registers and the same inputs, the same register file and outputs. -/
theorem runCommand_congr {c : Config} {i : Instr} {s s' t : State} (hc : c.wellFormed = true)
    (hregs : s'.regs = s.regs) (hsame : SameTagInputs c s s') (hdata : dataIn c s' = dataIn c s)
    (htag : i = .gcmDec → tagIn c s' = tagIn c s) (hrun : runCommand c i s = .next t) :
    ∃ t' : State, runCommand c i s' = .next t' ∧ t'.regs = t.regs ∧ (Ready c i s.regs → SameOutputs c t t') := by
  rcases runCommand_next hrun with ⟨e, hcheck, rfl⟩ | ⟨hready, -⟩
  · have hnotReady : ¬ Ready c i s.regs := fun hready => by
      rw [(precheck_eq_none_iff c i s.regs).mpr hready.1] at hcheck
      cases hcheck
    exact ⟨raiseErr e s', runCommand_of_precheck (by rwa [hregs]), by rw [raiseErr_regs, raiseErr_regs, hregs],
      fun hready => absurd hready hnotReady⟩
  · obtain ⟨u, t', hu, hrun', hfile, houtputs⟩ :
        ∃ u t' : State, runCommand c i s = .next u ∧ runCommand c i s' = .next t'
            ∧ t'.regs = u.regs ∧ SameOutputs c u t' := by
      by_cases hi : i = .gcmDec
      · subst hi
        exact decrypt_congr hc hready hregs hsame hdata (htag rfl)
      · exact encrypt_congr hc hi hready hregs hsame hdata
    obtain rfl : t = u := Host.Outcome.next.inj (hrun.symm.trans hu)
    exact ⟨t', hrun', hfile, fun _ => houtputs⟩

theorem SameDescriptors.symm {r r' : Regs} (h : SameDescriptors r r') : SameDescriptors r' r := by
  rw [SameDescriptors] at h ⊢
  rw [← h]

/-- Settles O33: STATUS plays no part (`runCommand_setStatus`), so the registers may be taken as equal, and then
`runCommand_congr` applies. -/
theorem resultsDependOnlyOnTheInputs : Obligations.ResultsDependOnlyOnTheInputs := by
  intro i s s' t hdesc hkey hiv haad hdata htag hexec
  rw [exec_eq_runCommand] at hexec ⊢
  rw [← runCommand_setStatus Config.machine i s' s.regs.status]
  have hregs : (setStatus s' s.regs.status).regs = s.regs := hdesc.symm
  have hsame : SameTagInputs Config.machine s (setStatus s' s.regs.status) :=
    sameTagInputs_of_reads hkey (by rw [hregs]; exact hiv) haad
  obtain ⟨t', hrun', hfile, houtputs⟩ := runCommand_congr machine_wellFormed hregs hsame hdata htag hexec
  obtain ⟨b, -, htregs⟩ := runCommand_next_regs hexec
  refine ⟨t', hrun', hfile, fun hready => ?_⟩
  obtain ⟨hout, htags, hws⟩ := houtputs hready
  rw [htregs] at hws
  exact ⟨hout, htags, hws⟩

end Sys2Proof.Machine

/-! ## Counter mode on whole blocks (rules R162, R163) -/

namespace Sys2Proof.Machine

/-- On whole blocks the unpadded variant is the padded one (R162). -/
theorem ctr_of_aligned (E : Block → Block → Block) (key icb : Block) {input : Bytes} (h : input.length % 16 = 0) :
    ctr E key icb input = ctrpBytes E key icb input := by
  rw [ctr, if_pos h, ctrBlocks_fst, ctrpBytes]

theorem xor128_xor128 (x k : Block) : xor128 (xor128 x k) k = x := by
  rw [xor128, xor128, BitVec.xor_assoc, BitVec.xor_self, BitVec.xor_zero]

/-- CTRP is its own inverse: the counter blocks do not depend on the data (R163). -/
theorem ctrp_ctrp (E : Block → Block → Block) (key cb : Block) (xs : List Block) :
    ctrp E key cb (ctrp E key cb xs) = xs := by
  induction xs generalizing cb with
  | nil => rfl
  | cons x xs ih => rw [ctrp, ctrp, xor128_xor128, ih]

/-- CTRP on byte strings of whole blocks is its own inverse (R163). -/
theorem ctrpBytes_ctrpBytes (E : Block → Block → Block) (key icb : Block) {input : Bytes} (h : input.length % 16 = 0) :
    ctrpBytes E key icb (ctrpBytes E key icb input) = input := by
  have hblocks : blocksOf ((ctrpBytes E key icb input).length / 16) (ctrpBytes E key icb input)
      = ctrp E key icb (blocksOf (input.length / 16) input) := by
    have hcount : input.length / 16 = (ctrp E key icb (blocksOf (input.length / 16) input)).length := by
      rw [length_ctrp, length_blocksOf]
    rw [length_ctrpBytes E key icb input h]
    conv_lhs => rw [hcount]
    exact blocksOf_blocksBytes _
  have hlen : 16 * (input.length / 16) = input.length := by omega
  rw [ctrpBytes, hblocks, ctrp_ctrp, blocksBytes_blocksOf _ _ hlen.le, hlen, List.take_length]

end Sys2Proof.Machine

/-! ## A changed tag is detected (rules R207, R210, R211) -/

namespace Sys2Proof.Machine

/-- On whole blocks every command runs its data through the padded variant (R162, R202, R204, R206). -/
theorem cipherOf_of_aligned {c : Config} (i : Instr) {s : State} (h : s.regs.dinLen.toNat % 16 = 0) :
    cipherOf c i s = ctrpBytes c.E (keyIn c s) (incr32 (counterIn c s)) (dataIn c s) := by
  cases i with
  | gcmEnc => exact ctr_of_aligned _ _ _ (by rwa [dataIn, length_readBytes])
  | gcmEncp | gcmDec => rfl

/-- GCM.DEC on the ciphertext of a whole number of blocks turns it back into the plaintext (R210). -/
theorem plaintext_of_ciphertext {c : Config} {i : Instr} {s u : State} (h : s.regs.dinLen.toNat % 16 = 0)
    (hsame : SameTagInputs c s u) (hdata : dataIn c u = cipherOf c i s) :
    ctrpBytes c.E (keyIn c u) (incr32 (counterIn c u)) (dataIn c u) = dataIn c s := by
  obtain ⟨hkey, hcounter, -⟩ := hsame
  rw [hdata, cipherOf_of_aligned i h, hkey, hcounter]
  exact ctrpBytes_ctrpBytes _ _ _ (by rwa [dataIn, length_readBytes])

/-- Settles O34: the tag that was written is the one GCM.DEC recomputes, so any other is refused; the plaintext is
written before the comparison. -/
theorem everyChangedTagIsDetected : Obligations.EveryChangedTagIsDetected := by
  intro c i s t u hc hi hready haligned hrun hreadyDec hkey hiv haad hdata hchanged
  have hsame := sameTagInputs_of_reads hkey hiv haad
  obtain ⟨t', hrun', -, -, -, hct, htag, -, -⟩ := encrypt_completes hc hi hready
  obtain rfl : t = t' := Host.Outcome.next.inj (hrun.symm.trans hrun')
  obtain ⟨w, hdec, -, hfail, -, -, hplain, -, -⟩ := decrypt_completes hc hreadyDec
  rw [htag, ← hdata, ← tagFor_congr hsame] at hchanged
  exact ⟨w, hdec, hfail hchanged, hplain.trans (plaintext_of_ciphertext haligned hsame (hdata.trans hct))⟩

end Sys2Proof.Machine

/-! ## No residue in the workspace (rules R70, R209, R212, R236) -/

namespace Sys2Proof.Machine

theorem inRegion_mono {p n n' a : Nat} (hn : n ≤ n') (h : inRegion p n a) : inRegion p n' a :=
  ⟨h.1, h.2.trans_le (Nat.add_le_add_left hn p)⟩

/-- The body of every ready command ends with the workspace erased (R212, R236). -/
theorem bodyOf_workspaceZero {c : Config} {i : Instr} {s : State} (hc : c.wellFormed = true)
    (hready : Ready c i s.regs) : WorkspaceZero c (bodyOf c i s) := by
  by_cases hi : i = .gcmDec
  · subst hi
    obtain ⟨-, hzero, -⟩ := bodyOf_decrypt_mem hc hready
    exact hzero
  · obtain ⟨-, -, hzero, -⟩ := bodyOf_encrypt_mem hc hi hready
    exact hzero

/-- The body of a ready command changes no byte outside its written extents (R70, R209). GCM.ENC writes fewer bytes of
its data output than it reserves (R203). -/
theorem bodyOf_frame {c : Config} {i : Instr} {s : State} (hc : c.wellFormed = true) (hready : Ready c i s.regs)
    {a : Nat} (ha : ∀ u ∈ writtenExtents i s.regs, ¬ inRegion u.1 u.2 a) :
    readByte c (bodyOf c i s).mem a = readByte c s.mem a := by
  cases i with
  | gcmEnc =>
    obtain ⟨-, -, -, hframe⟩ := bodyOf_encrypt_mem hc (by decide) hready
    simp only [writtenExtents, List.forall_mem_cons] at ha
    obtain ⟨hdout, hws, htag, -⟩ := ha
    exact hframe a (mt (inRegion_mono (by omega)) hdout) htag hws
  | gcmEncp =>
    obtain ⟨-, -, -, hframe⟩ := bodyOf_encrypt_mem hc (by decide) hready
    simp only [writtenExtents, List.forall_mem_cons] at ha
    obtain ⟨hdout, hws, htag, -⟩ := ha
    exact hframe a hdout htag hws
  | gcmDec =>
    obtain ⟨-, -, hframe⟩ := bodyOf_decrypt_mem hc hready
    simp only [writtenExtents, List.forall_mem_cons] at ha
    obtain ⟨hdout, hws, -⟩ := ha
    exact hframe a hdout hws

/-- A region that a ready command only reads holds the same bytes after its body: no written extent meets it (R67). -/
theorem readBytes_bodyOf_readExtent {c : Config} {i : Instr} {s : State} (hc : c.wellFormed = true)
    (hready : Ready c i s.regs) {p n : Nat} (hread : (p, n) ∈ readExtents i s.regs) :
    readBytes c (bodyOf c i s).mem p n = readBytes c s.mem p n := by
  refine readBytes_congr fun a ha => bodyOf_frame hc hready fun u hu h => ?_
  obtain ⟨-, -, -, hapart⟩ := hready
  exact hapart u hu (p, n) hread a ⟨h, ha⟩

/-- Every command only reads its key, IV, AAD and data input (R70). -/
theorem mem_readExtents (i : Instr) (r : Regs) :
    (r.keyPtr, 16) ∈ readExtents i r ∧ (r.ivPtr, 12) ∈ readExtents i r
      ∧ (r.aadPtr, r.aadLen.toNat) ∈ readExtents i r ∧ (r.dinPtr, r.dinLen.toNat) ∈ readExtents i r := by
  cases i <;> simp [readExtents]

/-- GCM.DEC only reads the tag it is given (R70, R206). -/
theorem tag_mem_readExtents (r : Regs) : (r.tagPtr, 16) ∈ readExtents .gcmDec r := by simp [readExtents]

/-- Settles O30: a ready command that answers ran its body, which erases the workspace, keeps the descriptor registers
and writes no region that it reads. -/
theorem noResidueInTheWorkspace : Obligations.NoResidueInTheWorkspace := by
  intro i s t hready hexec
  rw [exec_eq_runCommand, runCommand_of_ready hready] at hexec
  obtain rfl := Host.Outcome.next.inj hexec
  obtain ⟨v, -, hregs⟩ := bodyOf_regs hready
  obtain ⟨hkey, hiv, haad, hdata⟩ := mem_readExtents i s.regs
  have hkeep {p n : Nat} (hread : (p, n) ∈ readExtents i s.regs) :=
    readBytes_bodyOf_readExtent machine_wellFormed hready hread
  simp only [keyIn, counterIn, aadIn, dataIn, tagIn, hregs]
  refine ⟨bodyOf_workspaceZero machine_wellFormed hready, congrArg blockOfBytes (hkeep hkey),
    congrArg makeJ0 (hkeep hiv), hkeep haad, hkeep hdata, ?_⟩
  rintro rfl
  exact hkeep (tag_mem_readExtents s.regs)

end Sys2Proof.Machine

/-! ## The precondition checks in order, and the error codes of each command (rules R36, R250, R255 to R257) -/

namespace Sys2Proof.Machine

/-- PRECHECK as the list of R255 states it, each check a condition on the descriptor registers. -/
theorem precheck_eq (c : Config) (i : Instr) (r : Regs) :
    precheck c i r =
      if r.wsLen.toNat < wsMin c i then some .insufficientWorkspace
      else if i ≠ .gcmDec ∧ r.doutPtr = 0 then some .invalidBuffer
      else if r.dinLen.toNat = 0 ∧ r.aadLen.toNat = 0 then some .emptyInput
      else if i ≠ .gcmEnc ∧ r.dinLen.toNat % 16 ≠ 0 then some .unalignedInput
      else if 255 < r.dinLen.toNat ∨ 255 < r.aadLen.toNat then some .sizeOverflow
      else none := by
  simp only [precheck, workspaceShort_iff, outputAbsent_iff, inputEmpty_iff, inputUnaligned_iff, inputTooLong_iff]

/-- Settles O17: the checks before the failing one pass, so PRECHECK answers that check's code. A length that is not a
multiple of 16 or is above 255 is not 0, so the input is not empty there. -/
theorem firstFailingPreconditionIsReported : Obligations.FirstFailingPreconditionIsReported := by
  intro i s
  rw [exec_eq_runCommand]
  refine ⟨fun n hn => (workspaceOneByteShortAlwaysFails i n s hn).1, runCommand_of_workspaceShort,
    fun hws hi hdout => runCommand_of_precheck (e := .invalidBuffer) ?_,
    fun hws hdout hdin haad => runCommand_of_precheck (e := .emptyInput) ?_,
    fun hws hdout hi hdin => runCommand_of_precheck (e := .unalignedInput) ?_,
    fun hws hdout hdin hlong => runCommand_of_precheck (e := .sizeOverflow) ?_⟩
  · rw [precheck_eq, if_neg hws.not_gt, if_pos ⟨hi, hdout⟩]
  · rw [precheck_eq, if_neg hws.not_gt, if_neg (not_and.mpr hdout), if_pos ⟨hdin, haad⟩]
  · have hfilled : ¬ (s.regs.dinLen.toNat = 0 ∧ s.regs.aadLen.toNat = 0) := by omega
    rw [precheck_eq, if_neg hws.not_gt, if_neg (not_and.mpr hdout), if_neg hfilled, if_pos ⟨hi, hdin⟩]
  · have hfilled : ¬ (s.regs.dinLen.toNat = 0 ∧ s.regs.aadLen.toNat = 0) := by omega
    rw [precheck_eq, if_neg hws.not_gt, if_neg (not_and.mpr hdout), if_neg hfilled,
      if_neg (not_and_not_right.mpr hdin), if_pos hlong]

/-- Which commands can raise an error, by the rows of R250. -/
def CanRaise (i : Instr) : ErrCode → Prop
  | .invalidBuffer => i ≠ .gcmDec
  | .unalignedInput => i ≠ .gcmEnc
  | .emptyInput => True
  | .sizeOverflow => True
  | .insufficientWorkspace => True
  | .authenticationFailure => i = .gcmDec
  | .illegalCommand => False

theorem canRaise_of_precheck {c : Config} {i : Instr} {r : Regs} {e : ErrCode} (h : precheck c i r = some e) :
    CanRaise i e := by
  rcases precheck_cases h with ⟨rfl, -⟩ | ⟨rfl, hi, -⟩ | ⟨rfl, -⟩ | ⟨rfl, hi, -⟩ | ⟨rfl, -⟩
  · trivial
  · exact hi
  · trivial
  · exact hi
  · trivial

/-- A command that answers has succeeded, or has put an error of its own in STATUS (R256, R257). -/
theorem runCommand_next_status {c : Config} {i : Instr} {s t : State} (h : runCommand c i s = .next t) :
    t.regs.status = statusOk ∨ ∃ e, CanRaise i e ∧ t.regs.status = statusOfErr e := by
  rcases runCommand_next h with ⟨e, hcheck, rfl⟩ | ⟨hready, rfl⟩
  · exact .inr ⟨e, canRaise_of_precheck hcheck, rfl⟩
  · obtain ⟨v, hv, hregs⟩ := bodyOf_regs hready
    rw [hregs]
    rcases hv with rfl | ⟨rfl, hi⟩
    · exact .inl rfl
    · exact .inr ⟨.authenticationFailure, hi, rfl⟩

theorem doneOf_statusOfErr (e : ErrCode) : doneOf (statusOfErr e) = true := by cases e <;> rfl

theorem okOf_statusOfErr (e : ErrCode) : okOf (statusOfErr e) = false := by cases e <;> rfl

theorem errOf_statusOfErr (e : ErrCode) : errOf (statusOfErr e) = BitVec.ofNat 4 (errNumber e) := by cases e <;> rfl

/-- Settles O18, by `runCommand_next_status`: success leaves OK 1 and ERR 0, an error leaves OK 0 and its own number in
ERR, and the command can raise that error. -/
theorem eachCommandReportsOnlyItsOwnErrors : Obligations.EachCommandReportsOnlyItsOwnErrors := by
  intro i s t h
  rw [exec_eq_runCommand] at h
  rcases runCommand_next_status h with hstatus | ⟨e, hcan, hstatus⟩
  · rw [hstatus]
    exact ⟨rfl, by decide, by decide, fun _ => by decide, fun _ => by decide, fun _ => by decide⟩
  · rw [hstatus, doneOf_statusOfErr, okOf_statusOfErr, errOf_statusOfErr]
    cases e with
    | invalidBuffer =>
      have hi : i ≠ .gcmDec := hcan
      simp [errNumber, hi]
    | unalignedInput =>
      have hi : i ≠ .gcmEnc := hcan
      simp [errNumber, hi]
    | emptyInput | sizeOverflow | insufficientWorkspace => simp [errNumber]
    | authenticationFailure =>
      obtain rfl : i = .gcmDec := hcan
      simp [errNumber]
    | illegalCommand => exact hcan.elim

end Sys2Proof.Machine

/-! ## Reset, waiting, and DONE (rules R35, R42, R262, R280) -/

namespace Sys2Proof.Machine

/-- Settles O11: the move of the reset event is `resetEvent`. -/
theorem resetEventClearsRegistersAndKeepsMemory : Obligations.ResetEventClearsRegistersAndKeepsMemory :=
  fun _ _ => step_cons

/-- Settles O12. -/
theorem engineWaitsForTheHost : Obligations.EngineWaitsForTheHost := fun _ => step_idle

/-- A CMD write that answers has completed, whatever its opcode, and a completion sets DONE (R256, R257, R260). -/
theorem doneOf_of_step_cmdWrite {s t : State} {v : Nat} {ms : List HostMove} (hmove : s.moves = .regWrite 0 v :: ms)
    (h : step s = .next t) : doneOf t.regs.status = true := by
  cases hdec : decode (opcodeOf v) with
  | ok i =>
    rw [step_command hmove hdec] at h
    obtain ⟨hdone, -⟩ := eachCommandReportsOnlyItsOwnErrors i _ t h
    exact hdone
  | error e =>
    rw [step_illegal hmove hdec] at h
    obtain rfl := Host.Outcome.next.inj h
    exact doneOf_statusOfErr .illegalCommand

/-- Settles O21: STATUS changed, so the step was reset or a CMD write, and a CMD write leaves DONE at 1. -/
theorem doneIsClearedOnlyByReset : Obligations.DoneIsClearedOnlyByReset := by
  intro s t h hset hclear
  have hchanged : t.regs.status ≠ s.regs.status := fun he => by simp [he, hset] at hclear
  rcases statusChangesOnlyByCommandOrReset s t h hchanged with hreset | ⟨v, ms, hmove⟩
  · exact hreset
  · simp [doneOf_of_step_cmdWrite hmove h] at hclear

end Sys2Proof.Machine

/-! ## The two variants of counter mode agree, and each undoes itself (rules R160 to R163) -/

namespace Sys2Proof.Machine

/-- Settles O55. -/
theorem paddedVariantIsCounterMode : Obligations.PaddedVariantIsCounterMode :=
  fun E key icb _ h => (ctr_of_aligned E key icb h).symm

/-- CTR is its own inverse on every length: each byte meets the same keystream byte twice (R163). -/
theorem ctr_ctr (E : Block → Block → Block) (key icb : Block) (input : Bytes) :
    ctr E key icb (ctr E key icb input) = input := by
  refine List.ext_getElem (by simp) fun j hout hin => ?_
  have hct : j < (ctr E key icb input).length := by simpa using hin
  rw [← List.getD_eq_getElem _ 0#8 hout, ← List.getD_eq_getElem _ 0#8 hin, getD_ctr E key icb _ hct,
    getD_ctr E key icb input hin, BitVec.xor_assoc, BitVec.xor_self, BitVec.xor_zero]

/-- Settles O56. -/
theorem counterModeIsItsOwnInverse : Obligations.CounterModeIsItsOwnInverse :=
  fun E key icb input => ⟨ctr_ctr E key icb input, ctrpBytes_ctrpBytes E key icb⟩

end Sys2Proof.Machine

/-! ## The encrypt commands on whole blocks, and the round trip (rules R203, R204, R210, R231) -/

namespace Sys2Proof.Machine

/-- On whole blocks GCM.ENC reserves no byte beyond its data, so it writes what GCM.ENCP writes (R70, R203). -/
theorem writtenExtents_gcmEnc_of_aligned {r : Regs} (h : r.dinLen.toNat % 16 = 0) :
    writtenExtents .gcmEnc r = writtenExtents .gcmEncp r := by
  have hround : 16 * ((r.dinLen.toNat + 15) / 16) = r.dinLen.toNat := by omega
  rw [writtenExtents, writtenExtents, hround]

/-- What GCM.ENC accepts on whole blocks GCM.ENCP accepts, when its minimum workspace is no larger (R231). -/
theorem ready_gcmEncp_of_gcmEnc {c : Config} {r : Regs} (hmin : wsMin c .gcmEncp ≤ wsMin c .gcmEnc)
    (h : Ready c .gcmEnc r) (haligned : r.dinLen.toNat % 16 = 0) : Ready c .gcmEncp r := by
  obtain ⟨⟨hws, hdout, hfilled, -, hshort⟩, hvalid, hapart⟩ := h
  have hsame : RegionsApart .gcmEncp r := by
    rwa [RegionsApart, writtenExtents_gcmEnc_of_aligned haligned] at hapart
  exact ⟨⟨hmin.trans hws, fun _ => hdout (by decide), hfilled, fun _ => haligned, hshort⟩, hvalid, hsame⟩

/-- On whole blocks the two encrypt commands have one body: the same ciphertext, and no tail to stage. -/
theorem bodyOf_gcmEncp_of_aligned (c : Config) {s : State} (h : s.regs.dinLen.toNat % 16 = 0) :
    bodyOf c .gcmEncp s = bodyOf c .gcmEnc s := by
  have hcipher : cipherOf c .gcmEnc s = cipherOf c .gcmEncp s := by
    rw [cipherOf_of_aligned _ h, cipherOf_of_aligned _ h]
  have htail : tailOf c .gcmEnc s = tailOf c .gcmEncp s := by
    rw [tailOf, tailOf, stagedTail, dataIn, length_readBytes, if_pos h]
  rw [bodyOf, bodyOf, hcipher, htail]

/-- Settles O31: both commands are ready and run one body, so they answer the same state. -/
theorem encryptCommandsAgreeOnAlignedInput : Obligations.EncryptCommandsAgreeOnAlignedInput := by
  intro s hready haligned
  have hreadyPadded := ready_gcmEncp_of_gcmEnc (by decide) hready haligned
  rw [exec_eq_runCommand, exec_eq_runCommand, runCommand_of_ready hready, runCommand_of_ready hreadyPadded,
    bodyOf_gcmEncp_of_aligned Config.machine haligned]
  exact ⟨_, _, rfl, rfl, rfl, fun _ => rfl⟩

/-- What a ready encrypt command that answered wrote: the ciphertext and its tag. -/
theorem encrypt_outputs {c : Config} {i : Instr} {s t : State} (hc : c.wellFormed = true) (hi : i ≠ .gcmDec)
    (hready : Ready c i s.regs) (hrun : runCommand c i s = .next t) :
    outputIn c t = cipherOf c i s ∧ tagIn c t = blockBytes (tagFor c s (outputIn c t)) := by
  obtain ⟨u, hu, -, -, -, hout, htag, -⟩ := encrypt_completes hc hi hready
  obtain rfl : t = u := Host.Outcome.next.inj (hrun.symm.trans hu)
  exact ⟨hout, htag⟩

/-- Settles O32: the tag that was written is the one GCM.DEC recomputes, and CTRP undoes itself. -/
theorem decryptionUndoesEncryption : Obligations.DecryptionUndoesEncryption := by
  intro c i s t u hc hi hready haligned hrun hreadyDec hkey hiv haad hdata htags
  have hsame := sameTagInputs_of_reads hkey hiv haad
  obtain ⟨hct, htag⟩ := encrypt_outputs hc hi hready hrun
  obtain ⟨w, hdec, hok, -, -, -, hplain, -, -⟩ := decrypt_completes hc hreadyDec
  rw [htag, ← hdata, ← tagFor_congr hsame] at htags
  exact ⟨w, hdec, hok htags, hplain.trans (plaintext_of_ciphertext haligned hsame (hdata.trans hct))⟩

end Sys2Proof.Machine

/-! ## GFMUL is a commutative ring product (rules R141, R142)

GFMUL is additive in both factors, and every block is a sum of monomials, so each law need only be checked for a
monomial as its first factor, where GFMUL steps the running multiple. -/

namespace Sys2Proof.Machine

/-- What holds of zero and of the monomials and is kept by sums holds of every block: a block is the sum of the
monomials that its field bits select. -/
theorem block_induction {P : Block → Prop} (zero : P 0#128) (xor : ∀ a b, P a → P b → P (a ^^^ b))
    (monomial : ∀ k, k < 128 → P (monomial k)) (x : Block) : P x := by
  have hpartial : ∀ n, n ≤ 128 → P (sumAfter x (Machine.monomial 0) n) := by
    intro n hn
    induction n with
    | zero => exact zero
    | succ n ih =>
      refine xor _ _ (ih (by omega)) ?_
      split
      · rw [multipleAfter_one (by omega)]
        exact monomial n (by omega)
      · exact zero
  rw [← gfmul_one x, gfmul_eq_sumAfter]
  exact hpartial 128 (Nat.le_refl 128)

/-- What one iteration adds to the accumulator is additive in the block that selects it. -/
theorem selected_xor (a b m : Block) (n : Nat) :
    (if fbit (a ^^^ b) n then m else 0#128) = (if fbit a n then m else 0#128) ^^^ (if fbit b n then m else 0#128) := by
  rw [fbit_xor]
  cases fbit a n <;> cases fbit b n <;> simp

theorem sumAfter_xor_left (a b y : Block) (n : Nat) :
    sumAfter (a ^^^ b) y n = sumAfter a y n ^^^ sumAfter b y n := by
  induction n with
  | zero => simp [sumAfter]
  | succ n ih =>
    rw [sumAfter, sumAfter, sumAfter, ih, selected_xor]
    ac_rfl

theorem sumAfter_xor_right (x a b : Block) (n : Nat) :
    sumAfter x (a ^^^ b) n = sumAfter x a n ^^^ sumAfter x b n := by
  induction n with
  | zero => simp [sumAfter]
  | succ n ih =>
    rw [sumAfter, sumAfter, sumAfter, ih, multipleAfter_xor]
    cases fbit x n with
    | false => simp
    | true => simp only [if_true]; ac_rfl

theorem xor_gfmul (a b y : Block) : gfmul (a ^^^ b) y = gfmul a y ^^^ gfmul b y := by
  rw [gfmul_eq_sumAfter, gfmul_eq_sumAfter, gfmul_eq_sumAfter, sumAfter_xor_left]

theorem gfmul_xor (x a b : Block) : gfmul x (a ^^^ b) = gfmul x a ^^^ gfmul x b := by
  rw [gfmul_eq_sumAfter, gfmul_eq_sumAfter, gfmul_eq_sumAfter, sumAfter_xor_right]

theorem multipleAfter_gfStepV (n : Nat) (y : Block) : multipleAfter n (gfStepV y) = gfStepV (multipleAfter n y) := by
  induction n with
  | zero => rfl
  | succ n ih => rw [multipleAfter, multipleAfter, ih]

/-- Multiplying the second factor by `t` multiplies the product by `t`. -/
theorem gfmul_gfStepV (x y : Block) : gfmul x (gfStepV y) = gfStepV (gfmul x y) := by
  induction x using block_induction with
  | zero => rw [zero_gfmul, zero_gfmul]; rfl
  | xor a b ha hb => rw [xor_gfmul, xor_gfmul, ha, hb, gfStepV_xor]
  | monomial k hk => rw [gfmul_monomial hk, gfmul_monomial hk, multipleAfter_gfStepV]

theorem gfmul_multipleAfter (x y : Block) (n : Nat) : gfmul x (multipleAfter n y) = multipleAfter n (gfmul x y) := by
  induction n with
  | zero => rfl
  | succ n ih => rw [multipleAfter, multipleAfter, gfmul_gfStepV, ih]

/-- A monomial may stand on either side: it is the identity stepped, and the product steps with its second factor. -/
theorem gfmul_monomial_right {k : Nat} (hk : k < 128) (y : Block) : gfmul y (monomial k) = multipleAfter k y := by
  rw [← multipleAfter_one hk, gfmul_multipleAfter, gfmul_one]

theorem gfmul_comm (x y : Block) : gfmul x y = gfmul y x := by
  induction x using block_induction with
  | zero => rw [zero_gfmul, gfmul_zero]
  | xor a b ha hb => rw [xor_gfmul, gfmul_xor, ha, hb]
  | monomial k hk => rw [gfmul_monomial hk, gfmul_monomial_right hk]

theorem gfmul_assoc (a b c : Block) : gfmul (gfmul a b) c = gfmul a (gfmul b c) := by
  induction a using block_induction with
  | zero => rw [zero_gfmul, zero_gfmul, zero_gfmul]
  | xor a a' ha ha' => rw [xor_gfmul, xor_gfmul, xor_gfmul, ha, ha']
  | monomial k hk =>
    calc gfmul (gfmul (monomial k) b) c = gfmul c (multipleAfter k b) := by rw [gfmul_monomial hk, gfmul_comm]
      _ = multipleAfter k (gfmul b c) := by rw [gfmul_multipleAfter, gfmul_comm c b]
      _ = gfmul (monomial k) (gfmul b c) := (gfmul_monomial hk _).symm

/-- Settles O47. -/
theorem multiplierIsACommutativeRingProduct : Obligations.MultiplierIsACommutativeRingProduct :=
  ⟨xor_gfmul, gfmul_comm, gfmul_assoc⟩

end Sys2Proof.Machine

/-! ## GFMUL has no zero divisors (rules R140, R142)

Rabin's irreducibility test for degree 128, on the ring of blocks itself: squaring `t` 128 times gives `t` back, while
the difference of `t^(2^64)` and `t` is a unit. -/

namespace Sys2Proof.Machine

section RabinTest

open Function

/-- If `2 ^ (k + 1)` is a period of a point and its half is not, then it divides every period of the point. -/
theorem two_pow_dvd_of_isPeriodicPt {α : Type*} {f : α → α} {a : α} {k d : Nat}
    (hfull : IsPeriodicPt f (2 ^ (k + 1)) a) (hhalf : ¬ IsPeriodicPt f (2 ^ k) a) (hd : IsPeriodicPt f d a) :
    2 ^ (k + 1) ∣ d := by
  obtain ⟨j, hj, hgcd⟩ := (Nat.dvd_prime_pow Nat.prime_two).mp (Nat.gcd_dvd_left (2 ^ (k + 1)) d)
  have hperiod : IsPeriodicPt f (2 ^ j) a := hgcd ▸ hfull.gcd hd
  obtain rfl : j = k + 1 := by
    by_contra hne
    exact hhalf (hperiod.trans_dvd (pow_dvd_pow 2 (by omega)))
  exact Nat.gcd_eq_left_iff_dvd.mp hgcd

/-- In a field of `2 ^ d` elements, squaring `d` times gives every element back. -/
theorem isPeriodicPt_square {K : Type*} [Field K] [Fintype K] {d : Nat} (hcard : Fintype.card K = 2 ^ d) (a : K) :
    IsPeriodicPt (fun x : K => x * x) d a := by
  have hpow := FiniteField.pow_card a
  rw [hcard] at hpow
  simpa [IsPeriodicPt, IsFixedPt, ← pow_two, pow_iterate] using hpow

/-- Rabin's test for a commutative ring of characteristic 2 with `2 ^ 2 ^ (k + 1)` elements. A quotient by a maximal
ideal is a field of `2 ^ d` elements; the test makes `2 ^ (k + 1)` divide `d`, so the quotient is as large as the ring
and the ring is that field. -/
theorem noZeroDivisors_of_square_period {R : Type*} [CommRing R] [Finite R] {k : Nat} (htwo : (2 : R) = 0)
    (hcard : Nat.card R = 2 ^ 2 ^ (k + 1)) {a : R} (hfull : IsPeriodicPt (fun x : R => x * x) (2 ^ (k + 1)) a)
    (hunit : IsUnit ((fun x : R => x * x)^[2 ^ k] a - a)) : NoZeroDivisors R := by
  have : Nontrivial R :=
    Finite.one_lt_card_iff_nontrivial.mp (by rw [hcard]; exact Nat.one_lt_two_pow (by positivity))
  obtain ⟨m, hm⟩ := Ideal.exists_maximal R
  let q := Ideal.Quotient.mk m
  have hq : Surjective q := Ideal.Quotient.mk_surjective
  let : Field (R ⧸ m) := Ideal.Quotient.field m
  have : Finite (R ⧸ m) := Finite.of_surjective q hq
  let : Fintype (R ⧸ m) := Fintype.ofFinite (R ⧸ m)
  have : CharP (R ⧸ m) 2 :=
    CharTwo.of_one_ne_zero_of_two_eq_zero one_ne_zero (by rw [← map_ofNat q 2, htwo, map_zero])
  obtain ⟨d, -, hd⟩ := FiniteField.card (R ⧸ m) 2
  have hsquare : Semiconj q (fun x => x * x) (fun x => x * x) := fun x => map_mul q x x
  have hhalf : ¬ IsPeriodicPt (fun x => x * x) (2 ^ k) (q a) := fun h => by
    refine (hunit.map q).ne_zero ?_
    rw [map_sub, hsquare.iterate_right (2 ^ k) a, h.eq, sub_self]
  have hdvd : 2 ^ (k + 1) ∣ (d : Nat) :=
    two_pow_dvd_of_isPeriodicPt (hfull.map hsquare) hhalf (isPeriodicPt_square hd (q a))
  have hle : Nat.card R ≤ Nat.card (R ⧸ m) := by
    rw [hcard, Nat.card_eq_fintype_card, hd]
    exact Nat.pow_le_pow_right two_pos (Nat.le_of_dvd d.pos hdvd)
  exact (hq.bijective_of_nat_card_le hle).injective.noZeroDivisors q (map_zero q) (map_mul q)

end RabinTest

/-- A block as a field element (R140). It is a type of its own, since Lean's `+` and `*` of a `Block` are those of the
numbers modulo `2^128`. -/
def FieldElement : Type := Block

/-- The blocks under XOR128 and GFMUL. -/
@[reducible] def FieldElement.commRing : CommRing FieldElement :=
  @CommRing.ofMinimalAxioms FieldElement ⟨xor128⟩ ⟨gfmul⟩ ⟨id⟩ ⟨0#128⟩ ⟨monomial 0⟩
    BitVec.xor_assoc (fun _ => BitVec.zero_xor) (fun _ => BitVec.xor_self) gfmul_assoc gfmul_comm one_gfmul gfmul_xor

def FieldElement.equivFin : FieldElement ≃ Fin (2 ^ 128) where
  toFun := BitVec.toFin
  invFun := BitVec.ofFin
  left_inv _ := rfl
  right_inv _ := rfl

/-- The power `t^(2^64)`. -/
def tPow64 : Block := 0x6f9945a9e519a7229d4c1ad657f8a686#128

theorem iterate_square_t : (fun x => gfmul x x)^[2 ^ 6] (monomial 1) = tPow64 := by decide +kernel

theorem iterate_square_tPow64 : (fun x => gfmul x x)^[2 ^ 6] tPow64 = monomial 1 := by decide +kernel

/-- Squaring `t` 128 times gives `t` back. -/
theorem isPeriodicPt_square_t : Function.IsPeriodicPt (fun x => gfmul x x) (2 ^ 6 + 2 ^ 6) (monomial 1) := by
  rw [Function.IsPeriodicPt, Function.IsFixedPt, Function.iterate_add_apply, iterate_square_t, iterate_square_tPow64]

/-- The inverse of the difference of `t^(2^64)` and `t`. -/
theorem gfmul_tPow64_xor_t_inverse :
    gfmul (xor128 tPow64 (monomial 1)) 0x180da934bf53158251c13dbb149f5279#128 = monomial 0 := by decide +kernel

theorem FieldElement.noZeroDivisors : letI := FieldElement.commRing; NoZeroDivisors FieldElement := by
  let := FieldElement.commRing
  have : Finite FieldElement := .of_equiv _ FieldElement.equivFin.symm
  have hcard : Nat.card FieldElement = 2 ^ 2 ^ (6 + 1) := by
    rw [Nat.card_congr FieldElement.equivFin, Nat.card_fin]
    rfl
  have hhalf : (fun x : FieldElement => x * x)^[2 ^ 6] (monomial 1) = tPow64 := iterate_square_t
  have hunit : IsUnit (M := FieldElement) (xor128 tPow64 (monomial 1)) :=
    IsUnit.of_mul_eq_one _ gfmul_tPow64_xor_t_inverse
  exact noZeroDivisors_of_square_period BitVec.xor_self hcard isPeriodicPt_square_t (hhalf ▸ hunit)

/-- Settles O48: a product of blocks is their product as field elements. -/
theorem multiplierHasNoZeroDivisors : Obligations.MultiplierHasNoZeroDivisors := by
  let := FieldElement.commRing
  have := FieldElement.noZeroDivisors
  exact fun x y => (mul_eq_zero (M₀ := FieldElement)).mp

end Sys2Proof.Machine

/-! ## One changed byte is detected (rules R143, R183, R184, R211) -/

namespace Sys2Proof.Machine

/-- Multiplying by a non-zero subkey keeps blocks apart: their difference would be a zero divisor. -/
theorem gfmul_left_injective {h : Block} (hh : h ≠ 0#128) : Function.Injective (gfmul · h) := by
  intro x y hxy
  have hzero : gfmul (x ^^^ y) h = 0#128 := by
    rw [xor_gfmul, BitVec.xor_eq_zero_iff]
    exact hxy
  exact BitVec.xor_eq_zero_iff.mp ((multiplierHasNoZeroDivisors _ _ hzero).resolve_right hh)

theorem ghashStep_accumulator_injective {h : Block} (hh : h ≠ 0#128) (x : Block) :
    Function.Injective (ghashStep h · x) :=
  fun _ _ heq => (BitVec.xor_left_inj _).mp (gfmul_left_injective hh heq)

theorem ghashStep_block_injective {h : Block} (hh : h ≠ 0#128) (y : Block) : Function.Injective (ghashStep h y) :=
  fun _ _ heq => (BitVec.xor_right_inj _).mp (gfmul_left_injective hh heq)

/-- Folding the same blocks keeps two accumulators apart. -/
theorem foldl_ghashStep_injective {h : Block} (hh : h ≠ 0#128) (xs : List Block) :
    Function.Injective fun y => xs.foldl (ghashStep h) y := by
  induction xs with
  | nil => exact fun _ _ => id
  | cons x xs ih => exact ih.comp (ghashStep_accumulator_injective hh x)

theorem ghashFold_injective {h : Block} (hh : h ≠ 0#128) (data : Bytes) :
    Function.Injective fun y => ghashFold y data h := foldl_ghashStep_injective hh _

/-- Byte strings that differ in one of their first sixteen bytes give different blocks. -/
theorem blockOfBytes_ne {bs bs' : Bytes} {j : Nat} (hj : j < 16) (h : bs.getD j 0#8 ≠ bs'.getD j 0#8) :
    blockOfBytes bs ≠ blockOfBytes bs' := fun he =>
  h (by rw [← byteOf_blockOfBytes bs hj, he, byteOf_blockOfBytes bs' hj])

/-- Replacing one of the folded bytes by another value changes the accumulator: the block that holds the byte is
another one, and the blocks before and after it are the same. -/
theorem foldl_blocksOf_set_ne {h : Block} (hh : h ≠ 0#128) {k j : Nat} (y : Block) {bs : Bytes} {b : Byte}
    (hk : j < 16 * k) (hj : j < bs.length) (hb : b ≠ bs.getD j 0#8) :
    (blocksOf k (bs.set j b)).foldl (ghashStep h) y ≠ (blocksOf k bs).foldl (ghashStep h) y := by
  induction k generalizing y bs j with
  | zero => omega
  | succ k ih =>
    rw [blocksOf, blocksOf, List.foldl_cons, List.foldl_cons]
    rcases Nat.lt_or_ge j 16 with hfirst | hlater
    · have hblock : ((bs.set j b).take 16).getD j 0#8 ≠ (bs.take 16).getD j 0#8 := by
        simpa [List.getElem?_take, hfirst, hj] using hb
      rw [List.drop_set_of_lt hfirst]
      exact (foldl_ghashStep_injective hh _).ne ((ghashStep_block_injective hh y).ne (blockOfBytes_ne hfirst hblock))
    · rw [List.take_set_of_le hlater, List.drop_set, if_neg hlater.not_gt]
      exact ih _ (by omega) (by simp; omega) (by simpa [hlater] using hb)

theorem ghashFold_set_ne {h : Block} (hh : h ≠ 0#128) (y : Block) {j : Nat} {bs : Bytes} {b : Byte}
    (hj : j < bs.length) (hb : b ≠ bs.getD j 0#8) : ghashFold y (bs.set j b) h ≠ ghashFold y bs h := by
  rw [ghashFold, ghashFold, List.length_set]
  exact foldl_blocksOf_set_ne hh y (by rw [blockCount]; omega) hj hb

/-- Different hash values have different tags: both are XORed with the same block (R98). -/
theorem gentag_ne_of_tagHash_ne {h : Block} {aad aad' ct ct' : Bytes} (hne : tagHash h aad ct ≠ tagHash h aad' ct')
    (E : Block → Block → Block) (key j0 : Block) : gentag E key h aad ct j0 ≠ gentag E key h aad' ct' j0 := by
  rw [tagIsHashXorEncryptedCounter, tagIsHashXorEncryptedCounter]
  exact fun he => hne ((BitVec.xor_left_inj _).mp he)

/-- Settles O35: the changed byte changes the accumulator of its own fold, and the folds after it keep the difference.
The length block is the same. -/
theorem oneChangedByteChangesTheTag : Obligations.OneChangedByteChangesTheTag := by
  intro E key h j0 aad ct j b hh
  refine ⟨fun hj hb => gentag_ne_of_tagHash_ne ?_ E key j0, fun hj hb => gentag_ne_of_tagHash_ne ?_ E key j0⟩
  · rw [tagHash, tagHash, List.length_set]
    exact (ghashFold_injective hh _).ne (ghashFold_set_ne hh _ hj hb)
  · rw [tagHash, tagHash, List.length_set]
    exact (ghashFold_injective hh _).ne ((ghashFold_injective hh _).ne (ghashFold_set_ne hh _ hj hb))

theorem blockBytes_injective : Function.Injective blockBytes :=
  Function.LeftInverse.injective blockOfBytes_blockBytes

/-- Settles O36: the supplied tag is the one that was written, and by O35 the recomputed one is another. -/
theorem oneChangedByteIsDetected : Obligations.OneChangedByteIsDetected := by
  intro c i s t u j b hc hi hready _ hrun hreadyDec hkey hiv htags hsubkey hchanged
  have hcounter : counterIn c u = counterIn c s := congrArg makeJ0 hiv
  obtain ⟨-, htag⟩ := encrypt_outputs hc hi hready hrun
  obtain ⟨w, hdec, -, hfail, -⟩ := decrypt_completes hc hreadyDec
  obtain ⟨hct, haad⟩ := oneChangedByteChangesTheTag c.E (keyIn c s) (c.E 0#128 (keyIn c s)) (counterIn c s)
    (aadIn c s) (outputIn c t) j b hsubkey
  have hne : tagFor c u (dataIn c u) ≠ tagFor c s (outputIn c t) := by
    rw [tagFor, tagFor, hkey, hcounter]
    rcases hchanged with ⟨hj, hb, hdata, hsame⟩ | ⟨hj, hb, hset, hdata⟩
    · rw [hdata, hsame]
      exact hct hj hb
    · rw [hdata, hset]
      exact haad hj hb
  exact ⟨w, hdec, hfail fun he => hne (blockBytes_injective (he.symm.trans (htags.trans htag)))⟩

end Sys2Proof.Machine
